-- ==== Sys2Proof/Word.lean ====
section
/-! DEFINITION. The word types of BSMC. Every value is an unsigned bit pattern of a stated width (spec/00_scope.md R9) and
all arithmetic is modulo 2^N (R10), which is `BitVec N`. -/

namespace Sys2Proof

/-- A command word, `CMDW` = 8 bits (R6, R35); also the width of a byte lane (R26). -/
abbrev Byte := BitVec 8

/-- A Morton key or a coordinate operand, `KEYW` = 32 bits (R6, R42, R71). -/
abbrev Key := BitVec 32

/-- An operand field or a result lane, `PORTW` = 64 bits (R6, R17, R18). -/
abbrev Word := BitVec 64

end Sys2Proof
end

