-- ==== Sys2Proof/Syntax.lean ====
section
/-! DEFINITION. The syntax of BSMC: one constructor of `Instr` per row of spec/opcode_table.json, and the host script lines
of spec/30_encoding.md R49. -/

namespace Sys2Proof

/-- The operand width W that `WSEL` selects for a format-B command (spec/30_encoding.md R38). All four are legal for every
format-B function. -/
inductive Width where
  | w8
  | w16
  | w32
  | w64
deriving DecidableEq, Repr

/-- W in bits: `8 << WSEL` (R38, R51). -/
abbrev Width.bits : Width → Nat
  | .w8 => 8
  | .w16 => 16
  | .w32 => 32
  | .w64 => 64

/-- The number of byte lanes of a W-bit value, W/8 (spec/20_memory.md R26). -/
abbrev Width.lanes : Width → Nat
  | .w8 => 1
  | .w16 => 2
  | .w32 => 4
  | .w64 => 8

/-- The direction `DIR` of a format-S command: 0 increment, 1 decrement (R40). -/
inductive Dir where
  | inc
  | dec
deriving DecidableEq, Repr

/-- The three axes of a Morton key, in bit-slots 0, 1, 2 modulo 3 (spec/41_morton_codec.md R71). -/
inductive Axis where
  | x
  | y
  | z
deriving DecidableEq, Repr

/-- A BSMC command word with a meaning, one constructor per mnemonic of R45. Operands are not part of the command word
(R44): they arrive on the request port. -/
inductive Instr where
  -- format B, at a width (R37)
  | bitAt (w : Width)
  | setBitAt (w : Width)
  | unsetBitAt (w : Width)
  | toggleBitAt (w : Width)
  | setBit (w : Width)
  | popCount (w : Width)
  | isPow2 (w : Width)
  | byteAt (w : Width)
  | setByteAt (w : Width)
  -- format K (R39)
  | menc
  | mdec
  | kadd
  | ksub
  | keq
  -- format S (R40)
  | incX
  | incY
  | incXY
  | incZ
  | incXZ
  | incYZ
  | incXYZ
  | decX
  | decY
  | decXY
  | decZ
  | decXZ
  | decYZ
  | decXYZ
deriving DecidableEq, Repr

/-- The mnemonic of R45, in upper case. -/
def Instr.mnemonic : Instr → String
  | .bitAt _ => "BITAT"
  | .setBitAt _ => "SETBITAT"
  | .unsetBitAt _ => "UNSETBITAT"
  | .toggleBitAt _ => "TOGGLEBITAT"
  | .setBit _ => "SETBIT"
  | .popCount _ => "POPCOUNT"
  | .isPow2 _ => "ISPOW2"
  | .byteAt _ => "BYTEAT"
  | .setByteAt _ => "SETBYTEAT"
  | .menc => "MENC"
  | .mdec => "MDEC"
  | .kadd => "KADD"
  | .ksub => "KSUB"
  | .keq => "KEQ"
  | .incX => "INCX"
  | .incY => "INCY"
  | .incXY => "INCXY"
  | .incZ => "INCZ"
  | .incXZ => "INCXZ"
  | .incYZ => "INCYZ"
  | .incXYZ => "INCXYZ"
  | .decX => "DECX"
  | .decY => "DECY"
  | .decXY => "DECXY"
  | .decZ => "DECZ"
  | .decXZ => "DECXZ"
  | .decYZ => "DECYZ"
  | .decXYZ => "DECXYZ"

/-- A result lane of a response, `Q0`, `Q1` or `Q2` (spec/10_state.md R18). -/
inductive Lane where
  | q0
  | q1
  | q2
deriving DecidableEq, Repr

/-- An operand of a host script line: a literal, or `%n.Qk`, a result lane of the response to line n of the same script,
lines counted from 1 (R49). -/
inductive Operand where
  | lit (v : Word)
  | ref (line : Nat) (lane : Lane)
deriving DecidableEq, Repr

/-- One line of a host script: a command word, reserved words included (spec/95_test_vectors.md script P3), and the three
operand fields. -/
structure Line where
  cmd : Byte
  a : Operand
  b : Operand
  c : Operand
deriving DecidableEq, Repr

/-- A host script: a reset with a strap value, then a finite list of commands (spec/70_reset_and_hazards.md R135). -/
structure Script where
  strap : Bool
  lines : List Line
deriving DecidableEq, Repr

end Sys2Proof
end

