-- ==== Sys2Proof/WellFormed.lean ====
section
/-! DEFINITION. What is well-formed. An `Instr` needs no check: its type admits exactly the operations and widths of
spec/30_encoding.md R45. What can be ill-formed is a command word (R46) and a host script (R49). -/

namespace Sys2Proof

/-- The bits `hi` down to `lo` of a command word as a number (spec/00_scope.md R11). -/
def cmdField (cmd : Byte) (hi lo : Nat) : Nat := (cmd.toNat / 2 ^ lo) % 2 ^ (hi + 1 - lo)

/-- R46: the reserved words, written from that rule's own list. Format B with `FN` 9 to 15; format K with `CMD[5:3]` not 000
or `FN` 5 to 7; format S with `CMD[5:4]` not 00 or `AX` = 000; every word with `GRP` = 11. -/
def illegalCommand (cmd : Byte) : Bool :=
  (cmdField cmd 7 6 == 0 && decide (9 ≤ cmdField cmd 3 0))
  || (cmdField cmd 7 6 == 1 && (cmdField cmd 5 3 != 0 || decide (5 ≤ cmdField cmd 2 0)))
  || (cmdField cmd 7 6 == 2 && (cmdField cmd 5 4 != 0 || cmdField cmd 2 0 == 0))
  || cmdField cmd 7 6 == 3

/-- A command word that R45 gives a mnemonic. -/
def legalCommand (cmd : Byte) : Bool := !illegalCommand cmd

/-- Every `Instr` is well-formed: each of its widths is legal for each format-B function (R38), and the axis sets of format S
are the seven non-empty ones (R40), each a constructor. -/
def Instr.wellFormed (_ : Instr) : Bool := true

/-- A reference `%n.Qk` names an earlier line of the same script: n is 1 or more and the line has been answered (R49). -/
def Operand.wellFormed (answered : Nat) : Operand → Bool
  | .lit _ => true
  | .ref n _ => decide (1 ≤ n) && decide (n ≤ answered)

/-- A script line after `answered` earlier lines. -/
def Line.wellFormed (answered : Nat) (l : Line) : Bool :=
  l.a.wellFormed answered && l.b.wellFormed answered && l.c.wellFormed answered

/-- The lines of a script, the first of them after `answered` earlier lines. -/
def linesWellFormed : Nat → List Line → Bool
  | _, [] => true
  | answered, l :: rest => l.wellFormed answered && linesWellFormed (answered + 1) rest

/-- R49: every operand reference of the script names an earlier line. -/
def Script.wellFormed (sc : Script) : Bool := linesWellFormed 0 sc.lines

end Sys2Proof
end

