-- ==== Sys2Proof/Decode.lean ====
section
/-! DEFINITION. Decoding and encoding of the 8-bit command word (spec/30_encoding.md R35 to R48). Decoding is total on the 256
words and reads `REQ.CMD` only (R48); neither operands nor `CFG.CHK` take part (R35, R47). -/

namespace Sys2Proof

/-- Why a command word is illegal: the clause of R46 it falls under. BSMC reports all of them alike, as IllegalCommand. -/
inductive Illegal where
  /-- Format B with `FN` 9 to 15. -/
  | bitFunction
  /-- Format K with `CMD[5:3]` not 000. -/
  | keyZeroField
  /-- Format K with `FN` 5 to 7. -/
  | keyFunction
  /-- Format S with `CMD[5:4]` not 00. -/
  | stepZeroField
  /-- Format S with `AX` = 000. -/
  | noAxis
  /-- `GRP` = 11. -/
  | reservedGroup
deriving DecidableEq, Repr

/-- `WSEL` as it selects the width (R38). -/
def decodeWidth : Nat → Width
  | 0 => .w8
  | 1 => .w16
  | 2 => .w32
  | _ => .w64

/-- Format B: `FN` at a width (R37). -/
def decodeB (w : Width) : Nat → Except Illegal Instr
  | 0 => .ok (.bitAt w)
  | 1 => .ok (.setBitAt w)
  | 2 => .ok (.unsetBitAt w)
  | 3 => .ok (.toggleBitAt w)
  | 4 => .ok (.setBit w)
  | 5 => .ok (.popCount w)
  | 6 => .ok (.isPow2 w)
  | 7 => .ok (.byteAt w)
  | 8 => .ok (.setByteAt w)
  | _ => .error .bitFunction

/-- Format K: `FN` (R39). -/
def decodeK : Nat → Except Illegal Instr
  | 0 => .ok .menc
  | 1 => .ok .mdec
  | 2 => .ok .kadd
  | 3 => .ok .ksub
  | 4 => .ok .keq
  | _ => .error .keyFunction

/-- Format S: `DIR` and `AX` (R40). -/
def decodeS (dir ax : Nat) : Except Illegal Instr :=
  match dir, ax with
  | 0, 1 => .ok .incX
  | 0, 2 => .ok .incY
  | 0, 3 => .ok .incXY
  | 0, 4 => .ok .incZ
  | 0, 5 => .ok .incXZ
  | 0, 6 => .ok .incYZ
  | 0, 7 => .ok .incXYZ
  | 1, 1 => .ok .decX
  | 1, 2 => .ok .decY
  | 1, 3 => .ok .decXY
  | 1, 4 => .ok .decZ
  | 1, 5 => .ok .decXZ
  | 1, 6 => .ok .decYZ
  | 1, 7 => .ok .decXYZ
  | _, _ => .error .noAxis

/-- The decode procedure of R48, total on all 256 command words. -/
def decode (cmd : Byte) : Except Illegal Instr :=
  match cmdField cmd 7 6 with
  | 0 => decodeB (decodeWidth (cmdField cmd 5 4)) (cmdField cmd 3 0)
  | 1 => if cmdField cmd 5 3 = 0 then decodeK (cmdField cmd 2 0) else .error .keyZeroField
  | 2 => if cmdField cmd 5 4 = 0 then decodeS (cmdField cmd 3 3) (cmdField cmd 2 0) else .error .stepZeroField
  | _ => .error .reservedGroup

/-- `WSEL` of a width (R38). -/
def encodeWidth : Width → BitVec 2
  | .w8 => 0b00
  | .w16 => 0b01
  | .w32 => 0b10
  | .w64 => 0b11

/-- A format-B word: `GRP` = 00, `WSEL`, `FN` (R37). -/
def formatB (w : Width) (fn : BitVec 4) : Byte := (0b00#2 ++ encodeWidth w) ++ fn

/-- A format-K word: `GRP` = 01, three zero bits, `FN` (R39). -/
def formatK (fn : BitVec 3) : Byte := (0b01#2 ++ 0b000#3) ++ fn

/-- A format-S word: `GRP` = 10, two zero bits, `DIR`, `AX` (R40). -/
def formatS (dir : BitVec 1) (ax : BitVec 3) : Byte := ((0b10#2 ++ 0b00#2) ++ dir) ++ ax

/-- The command word of an instruction (R45). -/
def encode : Instr → Byte
  | .bitAt w => formatB w 0
  | .setBitAt w => formatB w 1
  | .unsetBitAt w => formatB w 2
  | .toggleBitAt w => formatB w 3
  | .setBit w => formatB w 4
  | .popCount w => formatB w 5
  | .isPow2 w => formatB w 6
  | .byteAt w => formatB w 7
  | .setByteAt w => formatB w 8
  | .menc => formatK 0
  | .mdec => formatK 1
  | .kadd => formatK 2
  | .ksub => formatK 3
  | .keq => formatK 4
  | .incX => formatS 0 0b001
  | .incY => formatS 0 0b010
  | .incXY => formatS 0 0b011
  | .incZ => formatS 0 0b100
  | .incXZ => formatS 0 0b101
  | .incYZ => formatS 0 0b110
  | .incXYZ => formatS 0 0b111
  | .decX => formatS 1 0b001
  | .decY => formatS 1 0b010
  | .decXY => formatS 1 0b011
  | .decZ => formatS 1 0b100
  | .decXZ => formatS 1 0b101
  | .decYZ => formatS 1 0b110
  | .decXYZ => formatS 1 0b111

/-- The command word in the low 8 bits of an opcode-table word; bits at and above `nbits` are 0. -/
def tableByte (nbits w : Nat) : Byte := BitVec.ofNat 8 (w % 2 ^ nbits)

/-- The instruction that the decoder reads from an opcode-table word: BSMC's command word is 8 bits and has no operand words
(R35), so a word of more than 8 bits is no command. -/
def decodeTableWord (nbits w : Nat) : Option Instr :=
  if w % 2 ^ nbits < 2 ^ 8 then
    match decode (tableByte nbits w) with
    | .ok i => some i
    | .error _ => none
  else none

end Sys2Proof
end

