-- ==== Sys2Proof/Config.lean ====
section
/-! DEFINITION. The fixed parameters of BSMC (spec/00_scope.md R6). They are not arguments of the model. The one model
argument, `PROFILE_STRAP` (R7), is an input of the host's reset step and of `State.resetWith`; `resetStrap` only says which
of its two values the constant `State.reset` takes. BSMC leaves no value open, so no free value stands here. -/

namespace Sys2Proof.Config

/-- `COORDW`: bits per coordinate (R6). -/
abbrev coordW : Nat := 10

/-- `COORDMAX`: the largest legal coordinate (R6). -/
abbrev coordMax : Nat := 1023

/-- `NAXES`: axes x, y, z in key bit-slots 0, 1, 2 modulo 3 (R6). -/
abbrev nAxes : Nat := 3

/-- The strap value `State.reset` is taken with. DESIGN CHOICE (log entry 1), unsafe: R7 leaves the strap to the host; a
claim about both profiles is stated over `State.resetWith strap`. -/
def resetStrap : Bool := true

end Sys2Proof.Config
end

