-- ==== Sys2Proof/Machine/State.lean ====
section
/-! DEFINITION. The state of BSMC, its two ports, and the state after reset (spec/10_state.md). The complete architectural
state is one bit, `CFG.CHK` (R13); the ports and the host's pending steps stand beside it because `step` takes a state only. -/

namespace Sys2Proof.Machine

/-- The three operand fields of a request; their numbers in `RSP.FARG` are 1, 2, 3 (spec/10_state.md R17, R18). -/
inductive Arg where
  | a
  | b
  | c
deriving DecidableEq, Repr

/-- The request port (R17): a command word and three operand fields. -/
structure Request where
  cmd : Byte
  a : Word
  b : Word
  c : Word
deriving DecidableEq, Repr

/-- What a failed operand check identifies: the argument, its inclusive legal range, the offending value as the check read
it (spec/60_exceptions.md R109). -/
structure Violation where
  arg : Arg
  lo : Word
  hi : Word
  val : Word
deriving DecidableEq, Repr

/-- The response to one command, as the sum type R18 recommends: exactly one of three (R107). -/
inductive Response where
  /-- R108: the result lanes, zero where the command produces none. -/
  | ok (q0 q1 q2 : Word)
  /-- R109: RangeViolation with the operation, the argument, its valid range, the offending value. -/
  | range (op : Byte) (arg : Arg) (lo hi val : Word)
  /-- R110: IllegalCommand with the command word. -/
  | illegal (op : Byte)
deriving DecidableEq, Repr

/-- A step of the host (spec/70_reset_and_hazards.md R133): present a command, or reset with a strap value (R127). -/
inductive HostStep where
  | command (r : Request)
  | reset (strap : Bool)
deriving DecidableEq, Repr

/-- The state.

* `chk` is `CFG.CHK`, the one architectural state bit (R13, R16): `true` is the checked profile.
* `req` is the request port as the host last drove it (R17). Inputs, not storage: a command reads only its own request.
* `rsp` is the response port (R18): the response of the step just taken, `none` when that step was no command (R24).
* `inputs` is the MODEL's own field: the host's steps at the ports not yet taken, oldest first, in whatever order the port
  delivers them (spec/20_memory.md R31). -/
structure State where
  chk : Bool
  req : Request
  rsp : Option Response
  inputs : List HostStep
deriving DecidableEq, Repr

/-- A stop with a fault. It has NO constructor: in BSMC a fault is a response of its own command, never a stop
(spec/60_exceptions.md R107, R116), so no step ends this way. Safe: nothing can be proved from a case that cannot arise. -/
inductive Fault where
deriving DecidableEq, Repr

/-- A stop because the model gives no meaning. -/
inductive Refusal where
  /-- Raised by an arm of `exec` whose instruction has no meaning yet; no arm raises it in this model. Safe: the run stops. -/
  | notModelled (mnemonic : String)
deriving DecidableEq, Repr

/-- A request port with nothing presented on it. DESIGN CHOICE (log entry 2), unsafe in form: the spec gives the undriven
port no value (R24); no command can read these zeros, since accepting a command replaces them. -/
def Request.undriven : Request := ⟨0, 0, 0, 0⟩

/-- The state right after reset was released with `strap` on `PROFILE_STRAP` (R24, R125): `CFG.CHK` holds the strap, no
response is pending, the host has presented nothing. -/
def State.resetWith (strap : Bool) : State := ⟨strap, Request.undriven, none, []⟩

/-- The machine right after reset, with the strap of `Config.resetStrap` (log entry 1). -/
def State.reset : State := State.resetWith Config.resetStrap

end Sys2Proof.Machine
end

