-- ==== Sys2Proof/Machine/Ops.lean ====
section
/-! DEFINITION. The named operations of BSMC: answering a command, raising its two faults, the host's steps at the ports, the
bit and byte-lane operations, the spreading and gathering of coordinates, and the axis engines. There is no memory and no
register file to operate on (spec/10_state.md R14, R21). -/

namespace Sys2Proof.Machine

/-! ### Responses, faults, and the host's steps -/

/-- The outcome type of a step. -/
abbrev Result := Host.Outcome State Fault Refusal

/-- `zext_64` (spec/00_scope.md R11, spec/30_encoding.md R43). -/
def zext64 {n : Nat} (v : BitVec n) : Word := v.setWidth 64

/-- The response port carries `r`; nothing else changes (spec/60_exceptions.md R116). -/
def answer (s : State) (r : Response) : State := { s with rsp := some r }

/-- Ending a command with the OK response on one lane (R108); the other lanes are zero (R43). -/
def return1 (s : State) (q0 : Word) : Result := .next (answer s (.ok q0 0 0))

/-- Ending a command with the OK response on three lanes (R108). -/
def return3 (s : State) (q0 q1 q2 : Word) : Result := .next (answer s (.ok q0 q1 q2))

/-- TAKING THE FAULT RangeViolation (R109): the response identifies the operation, the argument, its valid range and the
offending value. Nothing is saved, no mode changes, control moves nowhere (R116), and there is no return from it (R117): the
next command runs as if this one had not been issued. -/
def raiseRange (s : State) (e : Violation) : State :=
  answer s (.range s.req.cmd e.arg e.lo e.hi e.val)

/-- TAKING THE FAULT IllegalCommand (R110). -/
def raiseIllegal (s : State) : State := answer s (.illegal s.req.cmd)

/-- `raise` ends the command, or the command goes on with the checked operand (spec/00_scope.md R11). -/
def checked {α : Type} (s : State) (c : Except Violation α) (k : α → Result) : Result :=
  match c with
  | .error e => .next (raiseRange s e)
  | .ok v => k v

/-- BSMC takes the request `r` from the port; `rest` is what the host does next. An earlier response is no longer on the
port: no command can read it (spec/10_state.md R14). -/
def accept (s : State) (r : Request) (rest : List HostStep) : State :=
  { s with req := r, rsp := none, inputs := rest }

/-- The host's reset step (spec/70_reset_and_hazards.md R125, R127): the state becomes `CHK := strap`, nothing else is
initialised because there is nothing else. -/
def applyReset (strap : Bool) (rest : List HostStep) : State := { State.resetWith strap with inputs := rest }

/-- The host has presented nothing: BSMC waits and produces no response (R126, R133). -/
def idle (s : State) : State := { s with rsp := none }

/-! ### Bit and byte-lane operations at a width n (spec/40_bit_primitives.md) -/

/-- `(v >> p) & 1` (R54). -/
def readBit {n : Nat} (v : BitVec n) (p : Nat) : BitVec n := (v >>> p) &&& 1#n

/-- `v | (1 << p)` (R55). -/
def forceOne {n : Nat} (v : BitVec n) (p : Nat) : BitVec n := v ||| (1#n <<< p)

/-- `v & ~(1 << p)` (R56). -/
def forceZero {n : Nat} (v : BitVec n) (p : Nat) : BitVec n := v &&& ~~~(1#n <<< p)

/-- `v ^ (1 << p)` (R57). -/
def flipBit {n : Nat} (v : BitVec n) (p : Nat) : BitVec n := v ^^^ (1#n <<< p)

/-- `(v & ~(1 << p)) | (b << p)` (R58). -/
def assignBit {n : Nat} (v : BitVec n) (p : Nat) (b : BitVec 1) : BitVec n :=
  (v &&& ~~~(1#n <<< p)) ||| (b.setWidth n <<< p)

/-- The number of 1 bits among bits 0 to i-1 of v. -/
def countOnes {n : Nat} : Nat → BitVec n → Nat
  | 0, _ => 0
  | i + 1, v => countOnes i v + (v.getLsbD i).toNat

/-- The per-bit count, "sum over i in 0..W-1 of v[i]" (R59). -/
def popCount {n : Nat} (v : BitVec n) : Nat := countOnes n v

/-- `(v != 0) and ((v & (v - 1)) == 0)` (R60). -/
def isPow2 {n : Nat} (v : BitVec n) : Bool := v != 0#n && (v &&& (v - 1#n)) == 0#n

/-- `(v >> s) & 0xFF` (R61). -/
def readLane {n : Nat} (v : BitVec n) (s : Nat) : BitVec n := (v >>> s) &&& 0xFF#n

/-- `(v & ~(0xFF << s)) | (zext_W(b) << s)` (R62). -/
def replaceLane {n : Nat} (v : BitVec n) (s : Nat) (b : Byte) : BitVec n :=
  (v &&& ~~~(0xFF#n <<< s)) ||| (b.setWidth n <<< s)

/-- The SWAR population count of R64, on the 64-bit datapath: PRESUMED (log entry 13), since R64 is informative and its
constants are from general knowledge. POPCOUNT is `popCount`; this form is kept to be shown equal to it. -/
def swarPopCount (v : Word) : Word :=
  let x1 := v - ((v >>> 1) &&& 0x5555555555555555#64)
  let x2 := (x1 &&& 0x3333333333333333#64) + ((x1 >>> 2) &&& 0x3333333333333333#64)
  let x3 := (x2 + (x2 >>> 4)) &&& 0x0F0F0F0F0F0F0F0F#64
  (x3 * 0x0101010101010101#64) >>> 56

/-! ### The Morton key layout and codec (spec/41_morton_codec.md) -/

/-- The axis masks `MX`, `MY`, `MZ` (R67): constants wired into the datapath (R23). -/
def axisMask : Axis → Key
  | .x => 0x09249249
  | .y => 0x12492492
  | .z => 0x24924924

/-- The unused-bit mask `MU` (R67). -/
def unusedMask : Key := 0xC0000000

/-- The axis steps `STEPX`, `STEPY`, `STEPZ` (R68). -/
def axisStep : Axis → Key
  | .x => 1
  | .y => 2
  | .z => 4

/-- The low i bits of n, each at three times its position. -/
def spreadBits : Nat → Key → Key
  | 0, _ => 0
  | i + 1, n => spreadBits i n ||| (((n >>> i) &&& 1) <<< (3 * i))

/-- `Spread10` (R69): `r[3i] = n[i]` for i in 0..9, every other bit zero. -/
def spread10 (n : Key) : Key := spreadBits Config.coordW n

/-- Bits 0, 3, ..., 3(i-1) of n, packed into the low i bits. -/
def gatherBits : Nat → Key → Key
  | 0, _ => 0
  | i + 1, n => gatherBits i n ||| (((n >>> (3 * i)) &&& 1) <<< i)

/-- `Gather10` (R70): `r[i] = n[3i]` for i in 0..9, `r[31:10] = 0`. -/
def gather10 (n : Key) : Key := gatherBits Config.coordW n

/-- The shift ladder with a pre-mask that R72 gives for the encoder: PRESUMED (log entry 13), since R72 marks its step masks
informative and from general knowledge. No meaning uses it; it is kept to be shown equal to `spread10`. -/
def spreadLadder (n : Key) : Key :=
  let n0 := n &&& 0x000003FF#32
  let n1 := (n0 ^^^ (n0 <<< 16)) &&& 0xFF0000FF#32
  let n2 := (n1 ^^^ (n1 <<< 8)) &&& 0x0300F00F#32
  let n3 := (n2 ^^^ (n2 <<< 4)) &&& 0x030C30C3#32
  (n3 ^^^ (n3 <<< 2)) &&& 0x09249249#32

/-- The shift ladder with a leading mask that R73 gives for the decoder: PRESUMED (log entry 13), since R73 marks its masks
informative and from general knowledge. No meaning uses it; it is kept to be shown equal to `gather10`. -/
def gatherLadder (n : Key) : Key :=
  let n0 := n &&& 0x09249249#32
  let n1 := (n0 ^^^ (n0 >>> 2)) &&& 0x030C30C3#32
  let n2 := (n1 ^^^ (n1 >>> 4)) &&& 0x0300F00F#32
  let n3 := (n2 ^^^ (n2 >>> 8)) &&& 0xFF0000FF#32
  (n3 ^^^ (n3 >>> 16)) &&& 0x000003FF#32

/-- The key of three coordinates (R74). -/
def encodeKey (x y z : Key) : Key := (spread10 z <<< 2) ||| (spread10 y <<< 1) ||| spread10 x

/-- The coordinate of an axis in a key (R75). -/
def decodeAxis (key : Key) : Axis → Key
  | .x => gather10 key
  | .y => gather10 (key >>> 1)
  | .z => gather10 (key >>> 2)

/-! ### The axis engines (spec/42_morton_step.md) and key arithmetic (spec/43_morton_keyarith.md) -/

/-- `IncAxis(key, M, S)` (R80). -/
def incAxis (key m st : Key) : Key :=
  (((key ||| ~~~m) + st) &&& m) ||| (key &&& ~~~m)

/-- `DecAxis(key, M, S)` (R81); the difference is masked (spec/90_conflicts.md C4). -/
def decAxis (key m st : Key) : Key :=
  (((key &&& m) - st) &&& m) ||| (key &&& ~~~m)

/-- The engine of a direction on one axis. -/
def engine (d : Dir) (key : Key) (a : Axis) : Key :=
  match d with
  | .inc => incAxis key (axisMask a) (axisStep a)
  | .dec => decAxis key (axisMask a) (axisStep a)

/-- The engine, if the axis is selected. -/
def stepIf (d : Dir) (a : Axis) (selected : Bool) (key : Key) : Key :=
  if selected then engine d key a else key

/-- `Step(key, DIR, AX)` (R82): the engine once per selected axis, in the order x, y, z. -/
def stepAxes (d : Dir) (ax : BitVec 3) (key : Key) : Key :=
  stepIf d .z (ax.getLsbD 2) (stepIf d .y (ax.getLsbD 1) (stepIf d .x (ax.getLsbD 0) key))

/-- The part of one axis in the parallel form of R82. -/
def stepPart (d : Dir) (key : Key) (a : Axis) : Key :=
  match d with
  | .inc => ((key ||| ~~~axisMask a) + axisStep a) &&& axisMask a
  | .dec => ((key &&& axisMask a) - axisStep a) &&& axisMask a

/-- A value of one axis, or zero if the axis is not selected. -/
def ifSelected (ax : BitVec 3) (i : Nat) (v : Key) : Key := if ax.getLsbD i then v else 0

/-- The parallel form of R82, kept to be shown equal to `stepAxes`. -/
def stepParallel (d : Dir) (ax : BitVec 3) (key : Key) : Key :=
  let sel := ifSelected ax 0 (axisMask .x) ||| ifSelected ax 1 (axisMask .y) ||| ifSelected ax 2 (axisMask .z)
  (key &&& ~~~sel) ||| (ifSelected ax 0 (stepPart d key .x) ||| ifSelected ax 1 (stepPart d key .y)
    ||| ifSelected ax 2 (stepPart d key .z))

/-- One axis of KADD (R100). -/
def addAxis (a b : Key) (ax : Axis) : Key := ((a ||| ~~~axisMask ax) + (b &&& axisMask ax)) &&& axisMask ax

/-- One axis of KSUB (R101). -/
def subAxis (a b : Key) (ax : Axis) : Key := ((a &&& axisMask ax) - (b &&& axisMask ax)) &&& axisMask ax

/-- The sum of two keys (R100); bits 31:30 are those of a. -/
def addKeys (a b : Key) : Key :=
  addAxis a b .x ||| addAxis a b .y ||| addAxis a b .z ||| (a &&& unusedMask)

/-- The difference of two keys (R101); bits 31:30 are those of a. -/
def subKeys (a b : Key) : Key :=
  subAxis a b .x ||| subAxis a b .y ||| subAxis a b .z ||| (a &&& unusedMask)

end Sys2Proof.Machine
end

