-- ==== Sys2Proof/Machine/Operands.lean ====
section
/-! DEFINITION. Every operand form of BSMC: the narrowing of the request fields (spec/30_encoding.md R42) and the operand
checks, which are the only place `CFG.CHK` is read (spec/10_state.md R16, spec/60_exceptions.md R112, R113). -/

namespace Sys2Proof.Machine

/-- The value operand v of a format-B command, `REQ.A[W-1:0]` (spec/40_bit_primitives.md R51). -/
def valueOp (w : Width) (s : State) : BitVec w.bits := s.req.a.setWidth w.bits

/-- `REQ.A[31:0]` (R42). -/
def keyA (s : State) : Key := s.req.a.setWidth 32

/-- `REQ.B[31:0]` (R42). -/
def keyB (s : State) : Key := s.req.b.setWidth 32

/-- `REQ.C[31:0]` (R42). -/
def keyC (s : State) : Key := s.req.c.setWidth 32

/-- The replacement byte of SETBYTEAT, `REQ.C[7:0]` (R42). -/
def byteOp (s : State) : Byte := s.req.c.setWidth 8

/-- `BitPos` (spec/40_bit_primitives.md R52): a position above W-1 faults in the checked profile and is taken modulo W in the
unchecked one. -/
def bitPos (chk : Bool) (w : Width) (pos : Word) : Except Violation Nat :=
  if pos.toNat ≤ w.bits - 1 then .ok pos.toNat
  else if chk then .error ⟨.b, 0, BitVec.ofNat 64 (w.bits - 1), pos⟩
  else .ok (pos.toNat % w.bits)

/-- `LanePos` (R53): a lane above W/8-1 faults in the checked profile and is taken modulo W/8 in the unchecked one. -/
def lanePos (chk : Bool) (w : Width) (pos : Word) : Except Violation Nat :=
  if pos.toNat ≤ w.lanes - 1 then .ok pos.toNat
  else if chk then .error ⟨.b, 0, BitVec.ofNat 64 (w.lanes - 1), pos⟩
  else .ok (pos.toNat % w.lanes)

/-- `LaneShift` (R53): the bit number of the lane's lowest bit; lane 0 is the most significant byte (spec/20_memory.md R26). -/
def laneShift (w : Width) (q : Nat) : Nat := 8 * (w.lanes - 1 - q)

/-- The bit operand of SETBIT (R58): compared at its full 64 bits, checked in both profiles. -/
def bitValue (c : Word) : Except Violation (BitVec 1) :=
  if c.toNat > 1 then .error ⟨.c, 0, 1, c⟩ else .ok (c.setWidth 1)

/-- A coordinate operand of MENC (spec/41_morton_codec.md R74): above 1023 it faults in the checked profile. -/
def coordinate (chk : Bool) (arg : Arg) (n : Key) : Except Violation Key :=
  if chk = true ∧ n.toNat > Config.coordMax then .error ⟨arg, 0, BitVec.ofNat 64 Config.coordMax, zext64 n⟩ else .ok n

end Sys2Proof.Machine
end

