-- ==== Sys2Proof/Machine/AxisStep.lean ====
section
/-! DEFINITION. Format S: the fourteen axis step commands (spec/42_morton_step.md). None faults and none checks a bound, in
either profile (R83); a coordinate wraps modulo 1024 within its own ten bits. -/

namespace Sys2Proof.Machine

/-- A step command on the key operand: `Step(key, DIR, AX)` (R82), zero-extended. -/
def stepKey (d : Dir) (ax : BitVec 3) (s : State) : Result := return1 s (zext64 (stepAxes d ax (keyA s)))

/-- INCX (R84). -/
def execIncX (s : State) : Result := stepKey .inc 0b001 s

/-- INCY (R85). -/
def execIncY (s : State) : Result := stepKey .inc 0b010 s

/-- INCXY (R86). -/
def execIncXY (s : State) : Result := stepKey .inc 0b011 s

/-- INCZ (R87). -/
def execIncZ (s : State) : Result := stepKey .inc 0b100 s

/-- INCXZ (R88). -/
def execIncXZ (s : State) : Result := stepKey .inc 0b101 s

/-- INCYZ (R89). -/
def execIncYZ (s : State) : Result := stepKey .inc 0b110 s

/-- INCXYZ (R90). -/
def execIncXYZ (s : State) : Result := stepKey .inc 0b111 s

/-- DECX (R91). -/
def execDecX (s : State) : Result := stepKey .dec 0b001 s

/-- DECY (R92). -/
def execDecY (s : State) : Result := stepKey .dec 0b010 s

/-- DECXY (R93). -/
def execDecXY (s : State) : Result := stepKey .dec 0b011 s

/-- DECZ (R94). -/
def execDecZ (s : State) : Result := stepKey .dec 0b100 s

/-- DECXZ (R95). -/
def execDecXZ (s : State) : Result := stepKey .dec 0b101 s

/-- DECYZ (R96). -/
def execDecYZ (s : State) : Result := stepKey .dec 0b110 s

/-- DECXYZ (R97). -/
def execDecXYZ (s : State) : Result := stepKey .dec 0b111 s

end Sys2Proof.Machine
end

