-- ==== Sys2Proof/Machine/BitPrimitives.lean ====
section
/-! DEFINITION. Format B: the bit primitives, each at the four widths (spec/40_bit_primitives.md). No command here has an effect
beyond its response (R65). -/

namespace Sys2Proof.Machine

/-- BITAT (R54): read one bit. -/
def execBitAt (w : Width) (s : State) : Result :=
  checked s (bitPos s.chk w s.req.b) fun p => return1 s (zext64 (readBit (valueOp w s) p))

/-- SETBITAT (R55): force one bit to 1. -/
def execSetBitAt (w : Width) (s : State) : Result :=
  checked s (bitPos s.chk w s.req.b) fun p => return1 s (zext64 (forceOne (valueOp w s) p))

/-- UNSETBITAT (R56): force one bit to 0. -/
def execUnsetBitAt (w : Width) (s : State) : Result :=
  checked s (bitPos s.chk w s.req.b) fun p => return1 s (zext64 (forceZero (valueOp w s) p))

/-- TOGGLEBITAT (R57): flip one bit. -/
def execToggleBitAt (w : Width) (s : State) : Result :=
  checked s (bitPos s.chk w s.req.b) fun p => return1 s (zext64 (flipBit (valueOp w s) p))

/-- SETBIT (R58): force one bit to a given value; the position is checked before the value (spec/60_exceptions.md R114). -/
def execSetBit (w : Width) (s : State) : Result :=
  checked s (bitPos s.chk w s.req.b) fun p =>
    checked s (bitValue s.req.c) fun b => return1 s (zext64 (assignBit (valueOp w s) p b))

/-- POPCOUNT (R59): the number of 1 bits; it never faults. -/
def execPopCount (w : Width) (s : State) : Result :=
  return1 s (BitVec.ofNat 64 (popCount (valueOp w s)))

/-- ISPOW2 (R60): the power-of-two test; it never faults. -/
def execIsPow2 (w : Width) (s : State) : Result :=
  return1 s (if isPow2 (valueOp w s) then 1 else 0)

/-- BYTEAT (R61): read one byte lane. -/
def execByteAt (w : Width) (s : State) : Result :=
  checked s (lanePos s.chk w s.req.b) fun q => return1 s (zext64 (readLane (valueOp w s) (laneShift w q)))

/-- SETBYTEAT (R62): replace one byte lane; the shift comes from the lane's index at every width (R53). -/
def execSetByteAt (w : Width) (s : State) : Result :=
  checked s (lanePos s.chk w s.req.b) fun q =>
    return1 s (zext64 (replaceLane (valueOp w s) (laneShift w q) (byteOp s)))

end Sys2Proof.Machine
end

