-- ==== Sys2Proof/Machine/Codec.lean ====
section
/-! DEFINITION. Format K, part 1: the Morton encoder and decoder (spec/41_morton_codec.md). -/

namespace Sys2Proof.Machine

/-- MENC (R74): encode three coordinates; in the checked profile the first one above 1023, in the order x, y, z, faults. -/
def execMenc (s : State) : Result :=
  checked s (coordinate s.chk .a (keyA s)) fun x =>
    checked s (coordinate s.chk .b (keyB s)) fun y =>
      checked s (coordinate s.chk .c (keyC s)) fun z => return1 s (zext64 (encodeKey x y z))

/-- MDEC (R75): decode a key; it never faults, and bits 31:30 of the key are ignored. -/
def execMdec (s : State) : Result :=
  return3 s (zext64 (decodeAxis (keyA s) .x)) (zext64 (decodeAxis (keyA s) .y)) (zext64 (decodeAxis (keyA s) .z))

end Sys2Proof.Machine
end

