-- ==== Sys2Proof/Machine/KeyArith.lean ====
section
/-! DEFINITION. Format K, part 2: whole-key add, subtract and equality (spec/43_morton_keyarith.md). None faults (R104, R112). -/

namespace Sys2Proof.Machine

/-- KADD (R100): add two coordinate triples in key space. -/
def execKadd (s : State) : Result := return1 s (zext64 (addKeys (keyA s) (keyB s)))

/-- KSUB (R101): subtract two coordinate triples in key space. -/
def execKsub (s : State) : Result := return1 s (zext64 (subKeys (keyA s) (keyB s)))

/-- KEQ (R102): equality of the raw 32-bit patterns. -/
def execKeq (s : State) : Result := return1 s (if keyA s = keyB s then 1 else 0)

end Sys2Proof.Machine
end

