-- ==== Sys2Proof/Machine/Dispatch.lean ====
section
/-! DEFINITION. One arm per instruction. -/

namespace Sys2Proof.Machine

def exec (i : Instr) (s : State) : Host.Outcome State Fault Refusal :=
  match i with
  | .bitAt w => Sys2Proof.Machine.execBitAt w s
  | .setBitAt w => Sys2Proof.Machine.execSetBitAt w s
  | .unsetBitAt w => Sys2Proof.Machine.execUnsetBitAt w s
  | .toggleBitAt w => Sys2Proof.Machine.execToggleBitAt w s
  | .setBit w => Sys2Proof.Machine.execSetBit w s
  | .popCount w => Sys2Proof.Machine.execPopCount w s
  | .isPow2 w => Sys2Proof.Machine.execIsPow2 w s
  | .byteAt w => Sys2Proof.Machine.execByteAt w s
  | .setByteAt w => Sys2Proof.Machine.execSetByteAt w s
  | .menc => Sys2Proof.Machine.execMenc s
  | .mdec => Sys2Proof.Machine.execMdec s
  | .kadd => Sys2Proof.Machine.execKadd s
  | .ksub => Sys2Proof.Machine.execKsub s
  | .keq => Sys2Proof.Machine.execKeq s
  | .incX => Sys2Proof.Machine.execIncX s
  | .incY => Sys2Proof.Machine.execIncY s
  | .incXY => Sys2Proof.Machine.execIncXY s
  | .incZ => Sys2Proof.Machine.execIncZ s
  | .incXZ => Sys2Proof.Machine.execIncXZ s
  | .incYZ => Sys2Proof.Machine.execIncYZ s
  | .incXYZ => Sys2Proof.Machine.execIncXYZ s
  | .decX => Sys2Proof.Machine.execDecX s
  | .decY => Sys2Proof.Machine.execDecY s
  | .decXY => Sys2Proof.Machine.execDecXY s
  | .decZ => Sys2Proof.Machine.execDecZ s
  | .decXZ => Sys2Proof.Machine.execDecXZ s
  | .decYZ => Sys2Proof.Machine.execDecYZ s
  | .decXYZ => Sys2Proof.Machine.execDecXYZ s

end Sys2Proof.Machine
end

