-- ==== Sys2Proof/Machine/Step.lean ====
section
/-! DEFINITION. One step: the host's next step at the ports is taken (spec/70_reset_and_hazards.md R133). -/

namespace Sys2Proof.Machine

/-- One step of the machine.

* The host has presented nothing: BSMC waits (R126, R133).
* The host resets: `CFG.CHK` takes the strap (R125, R127).
* The host presents a command: decode, which precedes every operand check (spec/30_encoding.md R48), then the command as one
  atomic step (spec/20_memory.md R29), or IllegalCommand (R46). -/
def step (s : State) : Host.Outcome State Fault Refusal :=
  match s.inputs with
  | [] => .next (idle s)
  | .reset strap :: rest => .next (applyReset strap rest)
  | .command r :: rest =>
    match decode r.cmd with
    | .ok i => exec i (accept s r rest)
    | .error _ => .next (raiseIllegal (accept s r rest))

/-- The host's next step presents the command word `w`, its operand fields zero. BSMC fetches nothing (spec/10_state.md R15):
this stands for the host presenting a command (log entry 3). -/
def State.withFetchWord (s : State) (nbits w : Nat) : State :=
  { s with inputs := .command ⟨tableByte nbits w, 0, 0, 0⟩ :: s.inputs }

end Sys2Proof.Machine
end

