-- ==== Sys2Proof/Machine/Flags.lean ====
section
/-! DEFINITION. BSMC has NO flags, condition codes or predicates: overflow and borrow are silent (spec/10_state.md R19), so no
flag computation exists. What stands here instead is the nearest thing the spec gives: `RSP.STATUS` and the flat hardware
image of a response (R18, spec/60_exceptions.md R108 to R111). `RSP.STATUS` is a field of one response, never sticky. -/

namespace Sys2Proof.Machine

/-- The flat field list of the response port (R18). -/
structure RspFields where
  status : BitVec 2
  q0 : Word
  q1 : Word
  q2 : Word
  fop : Byte
  farg : BitVec 2
  flo : Word
  fhi : Word
  fval : Word
deriving DecidableEq, Repr

/-- `RSP.STATUS` (R111): 0 OK, 1 RangeViolation, 2 IllegalCommand; 3 is never produced. -/
def statusCode : Response → BitVec 2
  | .ok _ _ _ => 0
  | .range _ _ _ _ _ => 1
  | .illegal _ => 2

/-- `RSP.FARG`: 1 = A, 2 = B, 3 = C (R18). -/
def argCode : Arg → BitVec 2
  | .a => 1
  | .b => 2
  | .c => 3

/-- The hardware image of a response: every field not named by R108, R109 or R110 is zero. -/
def Response.fields (r : Response) : RspFields :=
  match r with
  | .ok q0 q1 q2 => ⟨statusCode r, q0, q1, q2, 0, 0, 0, 0, 0⟩
  | .range op arg lo hi val => ⟨statusCode r, 0, 0, 0, op, argCode arg, lo, hi, val⟩
  | .illegal op => ⟨statusCode r, 0, 0, 0, op, 0, 0, 0, 0⟩

end Sys2Proof.Machine
end

