-- ==== Sys2Proof/Machine/Script.lean ====
section
/-! DEFINITION. The host's side of a run: assembler lines and host scripts (spec/30_encoding.md R49, R50,
spec/70_reset_and_hazards.md R135). BSMC has no program (R15): a script is the host's, and each of its lines is one `step`. -/

namespace Sys2Proof.Machine

/-- How many operand fields a command uses, always the first ones in the order A, B, C (spec/30_encoding.md R41). -/
def operandCount : Instr → Nat
  | .bitAt _ => 2
  | .setBitAt _ => 2
  | .unsetBitAt _ => 2
  | .toggleBitAt _ => 2
  | .setBit _ => 3
  | .popCount _ => 1
  | .isPow2 _ => 1
  | .byteAt _ => 2
  | .setByteAt _ => 3
  | .menc => 3
  | .mdec => 1
  | .kadd => 2
  | .ksub => 2
  | .keq => 2
  | .incX => 1
  | .incY => 1
  | .incXY => 1
  | .incZ => 1
  | .incXZ => 1
  | .incYZ => 1
  | .incXYZ => 1
  | .decX => 1
  | .decY => 1
  | .decXY => 1
  | .decZ => 1
  | .decXZ => 1
  | .decYZ => 1
  | .decXYZ => 1

/-- The suffix `.W` of a format-B mnemonic (R49). -/
def widthSuffix : Width → String
  | .w8 => ".8"
  | .w16 => ".16"
  | .w32 => ".32"
  | .w64 => ".64"

/-- `MNEMONIC[.W]` (R49): the suffix stands on format-B mnemonics only. -/
def assemblyName (i : Instr) : String :=
  match i with
  | .bitAt w => i.mnemonic ++ widthSuffix w
  | .setBitAt w => i.mnemonic ++ widthSuffix w
  | .unsetBitAt w => i.mnemonic ++ widthSuffix w
  | .toggleBitAt w => i.mnemonic ++ widthSuffix w
  | .setBit w => i.mnemonic ++ widthSuffix w
  | .popCount w => i.mnemonic ++ widthSuffix w
  | .isPow2 w => i.mnemonic ++ widthSuffix w
  | .byteAt w => i.mnemonic ++ widthSuffix w
  | .setByteAt w => i.mnemonic ++ widthSuffix w
  | .menc => i.mnemonic
  | .mdec => i.mnemonic
  | .kadd => i.mnemonic
  | .ksub => i.mnemonic
  | .keq => i.mnemonic
  | .incX => i.mnemonic
  | .incY => i.mnemonic
  | .incXY => i.mnemonic
  | .incZ => i.mnemonic
  | .incXZ => i.mnemonic
  | .incYZ => i.mnemonic
  | .incXYZ => i.mnemonic
  | .decX => i.mnemonic
  | .decY => i.mnemonic
  | .decXY => i.mnemonic
  | .decZ => i.mnemonic
  | .decXZ => i.mnemonic
  | .decYZ => i.mnemonic
  | .decXYZ => i.mnemonic

/-- An operand field that a line does not write is presented as zero (R49). -/
def operandAt (ops : List Operand) (k : Nat) : Operand := ops.getD k (.lit 0)

/-- The script line of an instruction and its written operands, in the order A, B, C; none when their number is wrong (R49). -/
def assemble (i : Instr) (ops : List Operand) : Option Line :=
  if ops.length = operandCount i then
    some ⟨encode i, operandAt ops 0, operandAt ops 1, operandAt ops 2⟩
  else none

/-- A result lane of a response. A fault response has none: the host must not read its lanes as results
(spec/60_exceptions.md R109, spec/70_reset_and_hazards.md R134). -/
def responseLane : Response → Lane → Option Word
  | .ok q0 _ _, .q0 => some q0
  | .ok _ q1 _, .q1 => some q1
  | .ok _ _ q2, .q2 => some q2
  | .range _ _ _ _ _, _ => none
  | .illegal _, _ => none

/-- The value of an operand, given the responses to the earlier lines: `%n.Qk` counts lines from 1 (R49). -/
def resolve (got : List Response) : Operand → Option Word
  | .lit v => some v
  | .ref n lane =>
    match n with
    | 0 => none
    | k + 1 =>
      match got[k]? with
      | some r => responseLane r lane
      | none => none

/-- The request a line presents once its references are substituted (spec/95_test_vectors.md section 4). -/
def lineRequest (got : List Response) (l : Line) : Option Request :=
  match resolve got l.a, resolve got l.b, resolve got l.c with
  | some a, some b, some c => some ⟨l.cmd, a, b, c⟩
  | _, _, _ => none

/-- The host presents one command. -/
def present (s : State) (r : Request) : State := { s with inputs := [.command r] }

/-- The lines of a script, each one `step`, the responses collected in order; none where the host breaks its duty and a line
has no request. -/
def runLines (s : State) (got : List Response) : List Line → Option (List Response × State)
  | [] => some (got, s)
  | l :: rest =>
    match lineRequest got l with
    | none => none
    | some r =>
      match step (present s r) with
      | .next t =>
        match t.rsp with
        | some x => runLines t (got ++ [x]) rest
        | none => none
      | .fault _ => none
      | .refused _ => none

/-- A run (R135): the reset with the script's strap, then its lines; the result is the list of responses and the end state. -/
def runScript (sc : Script) : Option (List Response × State) :=
  runLines (State.resetWith sc.strap) [] sc.lines

/-- The responses BSMC produces in k steps, in order. -/
def responsesIn : Nat → State → List Response
  | 0, _ => []
  | k + 1, s =>
    match step s with
    | .next t => t.rsp.toList ++ responsesIn k t
    | .fault _ => []
    | .refused _ => []

end Sys2Proof.Machine
end

