-- ==== Sys2Proof/Safety.lean ====
section
/-! DEFINITION. The terms claims are stated in: what a coordinate of a key is, which operands violate a range and how, when a
response is lawful. They are written from the rules' own prose and tables, not from the operations of Machine/, so that a claim
compares the two. -/

namespace Sys2Proof

open Sys2Proof.Machine

/-- The key bit-slot an axis owns modulo 3 (spec/41_morton_codec.md R71). -/
def slot : Axis → Nat
  | .x => 0
  | .y => 1
  | .z => 2

/-- The coordinate of an axis in a key as a number: key bit 3i + slot has weight 2^i, for i in 0..9 (R71). -/
def coord (a : Axis) (key : Key) : Nat :=
  ∑ i ∈ Finset.range 10, (key.getLsbD (3 * i + slot a)).toNat * 2 ^ i

/-- A key with bits 31:30 zero (R77). -/
def Canonical (key : Key) : Prop := key.getLsbD 30 = false ∧ key.getLsbD 31 = false

/-- `WSEL` of a width (spec/30_encoding.md R38). -/
def wsel : Width → Nat
  | .w8 => 0
  | .w16 => 1
  | .w32 => 2
  | .w64 => 3

/-- The command word of a format-B function at a width: `WSEL` in bits 5:4, `FN` in bits 3:0 (R37). -/
def wordB (w : Width) (fn : Nat) : Byte := BitVec.ofNat 8 (16 * wsel w + fn)

/-- The operand limits of `spec/60_exceptions.md` R112: a value above `hi` of operand `arg` offends, if the row is active. -/
def offenceIf (active : Bool) (arg : Arg) (hi : Nat) (v : Word) : List Violation :=
  if active = true ∧ hi < v.toNat then [⟨arg, 0, BitVec.ofNat 64 hi, v⟩] else []

/-- The low 32 bits of an operand field, as MENC's checks see it (R112). -/
def low32 (v : Word) : Word := BitVec.ofNat 64 (v.toNat % 2 ^ 32)

/-- Every violation of a command, in the order A, B, C of R114: the table of R112, with the profiles of R113. -/
def offences (chk : Bool) (i : Instr) (r : Request) : List Violation :=
  match i with
  | .bitAt w => offenceIf chk .b (w.bits - 1) r.b
  | .setBitAt w => offenceIf chk .b (w.bits - 1) r.b
  | .unsetBitAt w => offenceIf chk .b (w.bits - 1) r.b
  | .toggleBitAt w => offenceIf chk .b (w.bits - 1) r.b
  | .setBit w => offenceIf chk .b (w.bits - 1) r.b ++ offenceIf true .c 1 r.c
  | .byteAt w => offenceIf chk .b (w.bits / 8 - 1) r.b
  | .setByteAt w => offenceIf chk .b (w.bits / 8 - 1) r.b
  | .menc => offenceIf chk .a 1023 (low32 r.a) ++ offenceIf chk .b 1023 (low32 r.b) ++ offenceIf chk .c 1023 (low32 r.c)
  | .popCount _ => []
  | .isPow2 _ => []
  | .mdec => []
  | .kadd => []
  | .ksub => []
  | .keq => []
  | .incX => []
  | .incY => []
  | .incXY => []
  | .incZ => []
  | .incXZ => []
  | .incYZ => []
  | .incXYZ => []
  | .decX => []
  | .decY => []
  | .decXY => []
  | .decZ => []
  | .decXZ => []
  | .decYZ => []
  | .decXYZ => []

/-- The low n bits of an operand field, the rest zero. -/
def keepLow (n : Nat) (v : Word) : Word := BitVec.ofNat 64 (v.toNat % 2 ^ n)

/-- The part of a request a command reads (spec/30_encoding.md R41, R42): every ignored field and bit is zero. -/
def narrowed (i : Instr) (r : Request) : Request :=
  match i with
  | .bitAt w => ⟨r.cmd, keepLow w.bits r.a, r.b, 0⟩
  | .setBitAt w => ⟨r.cmd, keepLow w.bits r.a, r.b, 0⟩
  | .unsetBitAt w => ⟨r.cmd, keepLow w.bits r.a, r.b, 0⟩
  | .toggleBitAt w => ⟨r.cmd, keepLow w.bits r.a, r.b, 0⟩
  | .setBit w => ⟨r.cmd, keepLow w.bits r.a, r.b, r.c⟩
  | .popCount w => ⟨r.cmd, keepLow w.bits r.a, 0, 0⟩
  | .isPow2 w => ⟨r.cmd, keepLow w.bits r.a, 0, 0⟩
  | .byteAt w => ⟨r.cmd, keepLow w.bits r.a, r.b, 0⟩
  | .setByteAt w => ⟨r.cmd, keepLow w.bits r.a, r.b, keepLow 8 r.c⟩
  | .menc => ⟨r.cmd, keepLow 32 r.a, keepLow 32 r.b, keepLow 32 r.c⟩
  | .mdec => ⟨r.cmd, keepLow 32 r.a, 0, 0⟩
  | .kadd => ⟨r.cmd, keepLow 32 r.a, keepLow 32 r.b, 0⟩
  | .ksub => ⟨r.cmd, keepLow 32 r.a, keepLow 32 r.b, 0⟩
  | .keq => ⟨r.cmd, keepLow 32 r.a, keepLow 32 r.b, 0⟩
  | .incX => ⟨r.cmd, keepLow 32 r.a, 0, 0⟩
  | .incY => ⟨r.cmd, keepLow 32 r.a, 0, 0⟩
  | .incXY => ⟨r.cmd, keepLow 32 r.a, 0, 0⟩
  | .incZ => ⟨r.cmd, keepLow 32 r.a, 0, 0⟩
  | .incXZ => ⟨r.cmd, keepLow 32 r.a, 0, 0⟩
  | .incYZ => ⟨r.cmd, keepLow 32 r.a, 0, 0⟩
  | .incXYZ => ⟨r.cmd, keepLow 32 r.a, 0, 0⟩
  | .decX => ⟨r.cmd, keepLow 32 r.a, 0, 0⟩
  | .decY => ⟨r.cmd, keepLow 32 r.a, 0, 0⟩
  | .decXY => ⟨r.cmd, keepLow 32 r.a, 0, 0⟩
  | .decZ => ⟨r.cmd, keepLow 32 r.a, 0, 0⟩
  | .decXZ => ⟨r.cmd, keepLow 32 r.a, 0, 0⟩
  | .decYZ => ⟨r.cmd, keepLow 32 r.a, 0, 0⟩
  | .decXYZ => ⟨r.cmd, keepLow 32 r.a, 0, 0⟩

/-- The bits a result occupies in `Q0` (spec/30_encoding.md R43). -/
def resultBits : Instr → Nat
  | .bitAt _ => 1
  | .setBitAt w => w.bits
  | .unsetBitAt w => w.bits
  | .toggleBitAt w => w.bits
  | .setBit w => w.bits
  | .popCount _ => 7
  | .isPow2 _ => 1
  | .byteAt _ => 8
  | .setByteAt w => w.bits
  | .menc => 32
  | .mdec => 10
  | .kadd => 32
  | .ksub => 32
  | .keq => 1
  | .incX => 32
  | .incY => 32
  | .incXY => 32
  | .incZ => 32
  | .incXZ => 32
  | .incYZ => 32
  | .incXYZ => 32
  | .decX => 32
  | .decY => 32
  | .decXY => 32
  | .decZ => 32
  | .decXZ => 32
  | .decYZ => 32
  | .decXYZ => 32

/-- The bits a result occupies in `Q1` and in `Q2`: ten for MDEC, none otherwise (R18, R43). -/
def sideBits (i : Instr) : Nat := if i = .mdec then 10 else 0

/-- The direction and axis set of a format-S instruction (R40). -/
def stepForm : Instr → Option (Dir × List Axis)
  | .incX => some (.inc, [.x])
  | .incY => some (.inc, [.y])
  | .incXY => some (.inc, [.x, .y])
  | .incZ => some (.inc, [.z])
  | .incXZ => some (.inc, [.x, .z])
  | .incYZ => some (.inc, [.y, .z])
  | .incXYZ => some (.inc, [.x, .y, .z])
  | .decX => some (.dec, [.x])
  | .decY => some (.dec, [.y])
  | .decXY => some (.dec, [.x, .y])
  | .decZ => some (.dec, [.z])
  | .decXZ => some (.dec, [.x, .z])
  | .decYZ => some (.dec, [.y, .z])
  | .decXYZ => some (.dec, [.x, .y, .z])
  | .bitAt _ => none
  | .setBitAt _ => none
  | .unsetBitAt _ => none
  | .toggleBitAt _ => none
  | .setBit _ => none
  | .popCount _ => none
  | .isPow2 _ => none
  | .byteAt _ => none
  | .setByteAt _ => none
  | .menc => none
  | .mdec => none
  | .kadd => none
  | .ksub => none
  | .keq => none

/-- The one-axis increment formula of spec/42_morton_step.md R80 on a mask `m`, its complement `c` and its step, as R84 writes it
with literals. -/
def incFormula (key m c st : Key) : Key := (((key ||| c) + st) &&& m) ||| (key &&& c)

/-- The one-axis decrement formula of R81, as R91 writes it with literals. -/
def decFormula (key m c st : Key) : Key := (((key &&& m) - st) &&& m) ||| (key &&& c)

/-- A coordinate c after one step in a direction, modulo 1024, if its axis is selected (spec/42_morton_step.md R98). -/
def steppedCoord (d : Dir) (selected : Bool) (c : Nat) : Nat :=
  match d, selected with
  | .inc, true => (c + 1) % 1024
  | .dec, true => (c + 1023) % 1024
  | _, false => c

/-- The response to one command executed alone, in the profile `chk`. -/
def answerTo (chk : Bool) (i : Instr) (a b c : Word) : Option Response :=
  match exec i ⟨chk, ⟨encode i, a, b, c⟩, none, []⟩ with
  | .next t => t.rsp
  | .fault _ => none
  | .refused _ => none

/-- The first result lane of that response, if it is OK. -/
def lane0 (chk : Bool) (i : Instr) (a b c : Word) : Option Word :=
  match answerTo chk i a b c with
  | some (.ok q0 _ _) => some q0
  | _ => none

/-- TOGGLEBITAT at each position of a list in turn, each command taking the lane of the one before. -/
def toggleEach (chk : Bool) (w : Width) : List Nat → Word → Option Word
  | [], v => some v
  | p :: rest, v =>
    match lane0 chk (.toggleBitAt w) v (BitVec.ofNat 64 p) 0 with
    | some q => toggleEach chk w rest q
    | none => none

/-- What the response port may carry beside the request shown on it: an OK response only of a legal command with no violation,
on one lane unless it is MDEC (R18); a RangeViolation only with the record of the command's first violation (R109, R114), whose
value lies outside its range; an IllegalCommand only of a reserved word (R110). -/
def LawfulResponse (chk : Bool) (req : Request) : Response → Prop
  | .ok _ q1 q2 => ∃ i, decode req.cmd = .ok i ∧ offences chk i req = [] ∧ (i ≠ .mdec → q1 = 0 ∧ q2 = 0)
  | .range op arg lo hi val =>
    op = req.cmd ∧ lo.toNat ≤ hi.toNat ∧ hi.toNat < val.toNat ∧
      ∃ i, decode req.cmd = .ok i ∧ (offences chk i req).head? = some ⟨arg, lo, hi, val⟩
  | .illegal op => op = req.cmd ∧ illegalCommand op = true

/-- The invariant: whatever the response port carries is lawful for the request beside it, in the profile of `CFG.CHK`. -/
def Lawful (s : State) : Prop := ∀ r, s.rsp = some r → LawfulResponse s.chk s.req r

/-- A run is safe: BSMC cannot refuse, stall or stop (spec/70_reset_and_hazards.md R134), so every step answers a next state. -/
def Safe (s : State) : Prop := ∃ t, step s = .next t

end Sys2Proof
end

