-- ==== Sys2Proof/Certificates/Slice0/Obligations.lean ====
section
/-! DEFINITION. The statements for the provers. Each docstring says what the statement claims and which rule or section of spec/
it formalises; OBLIGATIONS.json lists them. -/

open Sys2Proof Sys2Proof.Machine

/-- For every command word and every instruction with its width operand at every value: the word decodes to the
instruction exactly when it is the instruction's encoding. So decode (encode i) = i for every i, no two instructions
share a word, and every word that decodes is the encoding of what it decodes to. (30_encoding.md sections 1 and 3
(formats B, K, S, the opcode map, the decode procedure)) -/
def Obligations.DecodeAndEncodeAgree : Prop :=
  ∀ (cmd : Byte) (i : Instr), decode cmd = .ok i ↔ encode i = cmd

/-- BITAT.8 is 0x00, SETBIT.16 is 0x14, POPCOUNT.32 is 0x25, SETBYTEAT.64 is 0x38, MENC is 0x40, KEQ is 0x44, INCXZ is
0x85, DECXYZ is 0x8F; 0x09, 0x45, 0x48, 0x80, 0x91 and 0xFF decode to nothing; 55 of the 256 words are legal.
(30_encoding.md section 3 (the opcode map)) -/
def Obligations.SpecWordsDecodeToTheirMnemonics : Prop :=
  decode 0x00 = .ok (.bitAt .w8) ∧ decode 0x14 = .ok (.setBit .w16) ∧ decode 0x25 = .ok (.popCount .w32) ∧
  decode 0x38 = .ok (.setByteAt .w64) ∧ decode 0x40 = .ok .menc ∧ decode 0x44 = .ok .keq ∧
  decode 0x85 = .ok .incXZ ∧ decode 0x8F = .ok .decXYZ ∧
  decode 0x09 = .error .bitFunction ∧ decode 0x45 = .error .keyFunction ∧ decode 0x48 = .error .keyZeroField ∧
  decode 0x80 = .error .noAxis ∧ decode 0x91 = .error .stepZeroField ∧ decode 0xFF = .error .reservedGroup ∧
  (List.range 256).countP (fun c => legalCommand (BitVec.ofNat 8 c)) = 55

/-- When the host's next step presents a request whose command word decodes to i, step answers what exec i answers on the
state with that request on the request port, no response pending, the same CFG.CHK and the host's remaining steps.
(30_encoding.md section 3 (decode procedure); 70_reset_and_hazards.md section 3 (agents)) -/
def Obligations.StepRunsTheDecodedCommand : Prop :=
  ∀ (s : State) (r : Request) (rest : List HostStep) (i : Instr),
    s.inputs = .command r :: rest → decode r.cmd = .ok i →
    step s = exec i ⟨s.chk, r, none, rest⟩

/-- A command word is in the list of reserved words exactly when it is the encoding of no instruction. Presenting one
answers the IllegalCommand response, in either profile and whatever the operand fields hold; CFG.CHK and the host's
remaining steps are unchanged; the response's fields are STATUS 2, FOP the command word, all others zero. (R46; R110) -/
def Obligations.ReservedWordAnswersIllegalCommand : Prop :=
  ∀ (s : State) (r : Request) (rest : List HostStep), s.inputs = .command r :: rest →
    (illegalCommand r.cmd = true ↔ ∀ i : Instr, encode i ≠ r.cmd) ∧
    (illegalCommand r.cmd = true → step s = .next ⟨s.chk, r, some (.illegal r.cmd), rest⟩) ∧
    (Response.illegal r.cmd).fields = ⟨2, 0, 0, 0, r.cmd, 0, 0, 0, 0⟩

/-- When the host's next step is a reset with a strap value, the step answers the state with CFG.CHK = strap, no response
pending and the host's remaining steps. That the undriven request port shows zeros is the model's choice (log entry
2). (70_reset_and_hazards.md section 1 (reset)) -/
def Obligations.ResetStepReplacesTheStateByTheStrap : Prop :=
  ∀ (s : State) (strap : Bool) (rest : List HostStep), s.inputs = .reset strap :: rest →
    step s = .next ⟨strap, Request.undriven, none, rest⟩

/-- When the host has presented nothing, a step changes nothing but that no response is on the response port. That waiting
is a step that answers a next state is the model's choice (log entry 4); the spec says that no step of BSMC is enabled
then. (70_reset_and_hazards.md section 1 and section 3 (agents)) -/
def Obligations.WithNothingPresentedBsmcWaits : Prop :=
  ∀ s : State, s.inputs = [] → step s = .next { s with rsp := none }

/-- For either strap value the state after reset has CFG.CHK equal to the strap, no response pending and no host step
outstanding. Statement about State.resetWith; which strap State.reset takes is the model's choice (log entry 1) and is
not stated. (10_state.md section 5 (reset values); 70_reset_and_hazards.md section 1 (reset)) -/
def Obligations.ResetHoldsTheStrapAndNoResponse : Prop :=
  ∀ strap : Bool, (State.resetWith strap).chk = strap ∧ (State.resetWith strap).rsp = none ∧
    (State.resetWith strap).inputs = []

/-- For every state: step answers a next state (never a fault, never a refusal), and the response port then carries a
response exactly when the step executed a presented command. That a step with nothing presented answers a next state,
and that the port carries no response after it, is the model's choice (log entry 4, DESIGN CHOICE); the spec says that
no step of BSMC is enabled then. (60_exceptions.md section 1 (outcomes); 70_reset_and_hazards.md section 3 (agents)) -/
def Obligations.EveryStepAnswersAndEveryCommandGetsOneResponse : Prop :=
  ∀ s : State, ∃ t, step s = .next t ∧
    ((∃ x, t.rsp = some x) ↔ ∃ r rest, s.inputs = .command r :: rest)

/-- Frame of all 28 instructions: for every instruction and every state, exec answers a next state that equals the state
but for the response port, which carries a response. CFG.CHK, the request port and the host's remaining steps are
unchanged, on faults too. (10_state.md section 1; 20_memory.md section 3; 60_exceptions.md section 4) -/
def Obligations.CommandsChangeNothingButTheirResponse : Prop :=
  ∀ (i : Instr) (s : State), ∃ r : Response, exec i s = .next { s with rsp := some r }

/-- Encoding: format B with FN = 0 at the four widths. With p = REQ.B mod W: when REQ.B < W, or in the unchecked profile,
the command completes with Q0 the bit p of REQ.A, 0 or 1, zero-extended in Q0, Q1 = Q2 = 0, and changes nothing but
the response. When REQ.B is W or more in the checked profile it answers RangeViolation on B with range 0..W-1 and the
value of REQ.B. (R54) -/
def Obligations.BitAtReadsOneBit : Prop :=
  ∀ (w : Width) (s : State),
    decode (wordB w 0) = .ok (.bitAt w) ∧
    ((s.req.b.toNat < w.bits ∨ s.chk = false) →
      ∃ q : Word, exec (.bitAt w) s = .next { s with rsp := some (.ok q 0 0) } ∧
        ∀ j, q.getLsbD j = (decide (j = 0) && s.req.a.getLsbD (s.req.b.toNat % w.bits))) ∧
    (s.chk = true → w.bits ≤ s.req.b.toNat →
      exec (.bitAt w) s = .next { s with rsp := some (.range s.req.cmd .b 0 (BitVec.ofNat 64 (w.bits - 1)) s.req.b) })

/-- Encoding: format B with FN = 1 at the four widths. With p = REQ.B mod W: when REQ.B < W, or in the unchecked profile,
the command completes with the low W bits of REQ.A with bit p forced to 1, zero-extended in Q0, Q1 = Q2 = 0, and
changes nothing but the response. When REQ.B is W or more in the checked profile it answers RangeViolation on B with
range 0..W-1 and the value of REQ.B. (R55) -/
def Obligations.SetBitAtForcesOneBitToOne : Prop :=
  ∀ (w : Width) (s : State),
    decode (wordB w 1) = .ok (.setBitAt w) ∧
    ((s.req.b.toNat < w.bits ∨ s.chk = false) →
      ∃ q : Word, exec (.setBitAt w) s = .next { s with rsp := some (.ok q 0 0) } ∧
        ∀ j, q.getLsbD j = (decide (j < w.bits) && (s.req.a.getLsbD j || decide (j = s.req.b.toNat % w.bits)))) ∧
    (s.chk = true → w.bits ≤ s.req.b.toNat →
      exec (.setBitAt w) s = .next { s with rsp := some (.range s.req.cmd .b 0 (BitVec.ofNat 64 (w.bits - 1)) s.req.b) })

/-- Encoding: format B with FN = 2 at the four widths. With p = REQ.B mod W: when REQ.B < W, or in the unchecked profile,
the command completes with the low W bits of REQ.A with bit p forced to 0, zero-extended in Q0, Q1 = Q2 = 0, and
changes nothing but the response. When REQ.B is W or more in the checked profile it answers RangeViolation on B with
range 0..W-1 and the value of REQ.B. (R56) -/
def Obligations.UnsetBitAtForcesOneBitToZero : Prop :=
  ∀ (w : Width) (s : State),
    decode (wordB w 2) = .ok (.unsetBitAt w) ∧
    ((s.req.b.toNat < w.bits ∨ s.chk = false) →
      ∃ q : Word, exec (.unsetBitAt w) s = .next { s with rsp := some (.ok q 0 0) } ∧
        ∀ j, q.getLsbD j = (decide (j < w.bits) && s.req.a.getLsbD j && !decide (j = s.req.b.toNat % w.bits))) ∧
    (s.chk = true → w.bits ≤ s.req.b.toNat →
      exec (.unsetBitAt w) s = .next { s with rsp := some (.range s.req.cmd .b 0 (BitVec.ofNat 64 (w.bits - 1)) s.req.b) })

/-- Encoding: format B with FN = 3 at the four widths. With p = REQ.B mod W: when REQ.B < W, or in the unchecked profile,
the command completes with the low W bits of REQ.A with bit p flipped, zero-extended in Q0, Q1 = Q2 = 0, and changes
nothing but the response. When REQ.B is W or more in the checked profile it answers RangeViolation on B with range
0..W-1 and the value of REQ.B. (R57) -/
def Obligations.ToggleBitAtFlipsOneBit : Prop :=
  ∀ (w : Width) (s : State),
    decode (wordB w 3) = .ok (.toggleBitAt w) ∧
    ((s.req.b.toNat < w.bits ∨ s.chk = false) →
      ∃ q : Word, exec (.toggleBitAt w) s = .next { s with rsp := some (.ok q 0 0) } ∧
        ∀ j, q.getLsbD j = (decide (j < w.bits) && (s.req.a.getLsbD j != decide (j = s.req.b.toNat % w.bits)))) ∧
    (s.chk = true → w.bits ≤ s.req.b.toNat →
      exec (.toggleBitAt w) s = .next { s with rsp := some (.range s.req.cmd .b 0 (BitVec.ofNat 64 (w.bits - 1)) s.req.b) })

/-- Encoding: format B with FN = 4. With p = REQ.B mod W: a position of W or more faults on B in the checked profile; else
a value REQ.C above 1, compared at 64 bits, faults on C with range 0..1 in both profiles; else the command completes
with the low W bits of REQ.A, bit p replaced by REQ.C[0], zero-extended in Q0. (R58) -/
def Obligations.SetBitAssignsOneBit : Prop :=
  ∀ (w : Width) (s : State),
    decode (wordB w 4) = .ok (.setBit w) ∧
    ((s.req.b.toNat < w.bits ∨ s.chk = false) → s.req.c.toNat ≤ 1 →
      ∃ q : Word, exec (.setBit w) s = .next { s with rsp := some (.ok q 0 0) } ∧
        ∀ j, q.getLsbD j = (decide (j < w.bits) &&
          (if j = s.req.b.toNat % w.bits then s.req.c.getLsbD 0 else s.req.a.getLsbD j))) ∧
    (s.chk = true → w.bits ≤ s.req.b.toNat →
      exec (.setBit w) s = .next { s with rsp := some (.range s.req.cmd .b 0 (BitVec.ofNat 64 (w.bits - 1)) s.req.b) }) ∧
    ((s.req.b.toNat < w.bits ∨ s.chk = false) → 1 < s.req.c.toNat →
      exec (.setBit w) s = .next { s with rsp := some (.range s.req.cmd .c 0 1 s.req.c) })

/-- Encoding: format B with FN = 5. For every width and state, in either profile, POPCOUNT completes with Q0 the number of
positions j < W at which REQ.A has a 1 bit. It never faults and changes nothing but the response. (R59) -/
def Obligations.PopCountCountsTheOneBits : Prop :=
  ∀ (w : Width) (s : State),
    decode (wordB w 5) = .ok (.popCount w) ∧
    exec (.popCount w) s = .next { s with rsp := some (.ok
      (BitVec.ofNat 64 (Finset.univ.filter (fun j : Fin w.bits => s.req.a.getLsbD j = true)).card) 0 0) }

/-- Encoding: format B with FN = 6. With v the low W bits of REQ.A: ISPOW2 completes with Q0 = 1 when v is not 0 and v &
(v - 1) is 0, else with 0; and that formula holds exactly when v is 2^k for some k. It never faults and changes
nothing but the response. (R60) -/
def Obligations.IsPow2TestsForAPowerOfTwo : Prop :=
  ∀ (w : Width) (s : State),
    decode (wordB w 6) = .ok (.isPow2 w) ∧
    (∀ v : BitVec w.bits, v.toNat = s.req.a.toNat % 2 ^ w.bits →
      exec (.isPow2 w) s = .next { s with rsp := some (.ok
        (if v ≠ 0 ∧ v &&& (v - 1#w.bits) = 0 then 1 else 0) 0 0) } ∧
      ((v ≠ 0 ∧ v &&& (v - 1#w.bits) = 0) ↔ ∃ k, v.toNat = 2 ^ k))

/-- Encoding: format B with FN = 7. With q = REQ.B mod (W/8): when REQ.B < W/8, or in the unchecked profile, BYTEAT
completes with Q0 the byte whose lowest bit is 8 * (W/8 - 1 - q) of the low W bits of REQ.A. A larger REQ.B in the
checked profile answers RangeViolation on B with range 0..W/8-1. (R61) -/
def Obligations.ByteAtReadsOneLane : Prop :=
  ∀ (w : Width) (s : State),
    decode (wordB w 7) = .ok (.byteAt w) ∧
    ((s.req.b.toNat < w.bits / 8 ∨ s.chk = false) →
      exec (.byteAt w) s = .next { s with rsp := some (.ok (BitVec.ofNat 64
        (s.req.a.toNat % 2 ^ w.bits / 2 ^ (8 * (w.bits / 8 - 1 - s.req.b.toNat % (w.bits / 8))) % 256)) 0 0) }) ∧
    (s.chk = true → w.bits / 8 ≤ s.req.b.toNat →
      exec (.byteAt w) s = .next { s with rsp := some (.range s.req.cmd .b 0 (BitVec.ofNat 64 (w.bits / 8 - 1)) s.req.b) })

/-- Encoding: format B with FN = 8. With q = REQ.B mod (W/8) and m = 8 * (W/8 - 1 - q): when REQ.B < W/8, or in the
unchecked profile, SETBYTEAT completes with the low W bits of REQ.A in which bits m to m+7 are REQ.C[7:0]. A larger
REQ.B in the checked profile answers RangeViolation on B with range 0..W/8-1; REQ.C is never checked.
(40_bit_primitives.md section 4 (SETBYTEAT; its law between BYTEAT and SETBYTEAT is a statement of its own)) -/
def Obligations.SetByteAtReplacesOneLane : Prop :=
  ∀ (w : Width) (s : State),
    decode (wordB w 8) = .ok (.setByteAt w) ∧
    ((s.req.b.toNat < w.bits / 8 ∨ s.chk = false) → ∀ m, m = 8 * (w.bits / 8 - 1 - s.req.b.toNat % (w.bits / 8)) →
      ∃ q : Word, exec (.setByteAt w) s = .next { s with rsp := some (.ok q 0 0) } ∧
        ∀ j, q.getLsbD j = (decide (j < w.bits) &&
          (if m ≤ j ∧ j < m + 8 then s.req.c.getLsbD (j - m) else s.req.a.getLsbD j))) ∧
    (s.chk = true → w.bits / 8 ≤ s.req.b.toNat →
      exec (.setByteAt w) s = .next { s with rsp := some (.range s.req.cmd .b 0 (BitVec.ofNat 64 (w.bits / 8 - 1)) s.req.b) })

/-- Encoding: word 0x40. With x, y, z the low 32 bits of REQ.A, REQ.B, REQ.C: when all are at most 1023, or in the
unchecked profile, MENC completes with a key whose bits 3i, 3i+1, 3i+2 are bit i of x, y, z for i < 10 and whose every
other bit is 0. In the checked profile the first of x, y, z above 1023 is reported as RangeViolation on A, B or C with
range 0..1023 and its 32-bit value. (R74) -/
def Obligations.MencInterleavesThreeCoordinates : Prop :=
  decode 0x40 = .ok .menc ∧ ∀ (s : State) (x y z : Nat),
    x = s.req.a.toNat % 2 ^ 32 → y = s.req.b.toNat % 2 ^ 32 → z = s.req.c.toNat % 2 ^ 32 →
    ((x ≤ 1023 ∧ y ≤ 1023 ∧ z ≤ 1023) ∨ s.chk = false →
      ∃ q : Word, exec .menc s = .next { s with rsp := some (.ok q 0 0) } ∧
        (∀ i, i < 10 → q.getLsbD (3 * i) = x.testBit i ∧ q.getLsbD (3 * i + 1) = y.testBit i ∧
          q.getLsbD (3 * i + 2) = z.testBit i) ∧
        ∀ j, 30 ≤ j → q.getLsbD j = false) ∧
    (s.chk = true → 1023 < x →
      exec .menc s = .next { s with rsp := some (.range s.req.cmd .a 0 1023 (BitVec.ofNat 64 x)) }) ∧
    (s.chk = true → x ≤ 1023 → 1023 < y →
      exec .menc s = .next { s with rsp := some (.range s.req.cmd .b 0 1023 (BitVec.ofNat 64 y)) }) ∧
    (s.chk = true → x ≤ 1023 → y ≤ 1023 → 1023 < z →
      exec .menc s = .next { s with rsp := some (.range s.req.cmd .c 0 1023 (BitVec.ofNat 64 z)) })

/-- Encoding: word 0x41. In either profile MDEC completes with Q0, Q1, Q2 whose bit i is bit 3i, 3i+1, 3i+2 of REQ.A for i
< 10 and whose other bits are 0. It never faults and changes nothing but the response. (R75) -/
def Obligations.MdecGathersThreeCoordinates : Prop :=
  decode 0x41 = .ok .mdec ∧ ∀ s : State, ∃ x y z : Word,
    exec .mdec s = .next { s with rsp := some (.ok x y z) } ∧
    ∀ i, x.getLsbD i = (decide (i < 10) && s.req.a.getLsbD (3 * i)) ∧
      y.getLsbD i = (decide (i < 10) && s.req.a.getLsbD (3 * i + 1)) ∧
      z.getLsbD i = (decide (i < 10) && s.req.a.getLsbD (3 * i + 2))

/-- With key the low 32 bits of REQ.A and the one-axis formula f of the direction, taken with the literal masks,
complements and steps of the rules: the words 0x81 to 0x87 are the seven INC commands, and each completes, in either
profile and with no fault, with f applied once per selected axis in the order x, y, z, zero-extended in Q0, and
changes nothing but the response. (R84; R85; R86; R87; R88; R89; R90) -/
def Obligations.IncrementCommandsFollowTheirFormulas : Prop :=
  ∀ (s : State) (key : Key), key.toNat = s.req.a.toNat % 2 ^ 32 →
    decode 0x81 = .ok .incX ∧
    exec .incX s = .next { s with rsp := some (.ok (BitVec.setWidth 64 (incFormula key 0x09249249 0xF6DB6DB6 1)) 0 0) } ∧
    decode 0x82 = .ok .incY ∧
    exec .incY s = .next { s with rsp := some (.ok (BitVec.setWidth 64 (incFormula key 0x12492492 0xEDB6DB6D 2)) 0 0) } ∧
    decode 0x83 = .ok .incXY ∧
    exec .incXY s = .next { s with rsp := some (.ok (BitVec.setWidth 64 (incFormula (incFormula key 0x09249249 0xF6DB6DB6 1) 0x12492492 0xEDB6DB6D 2)) 0 0) } ∧
    decode 0x84 = .ok .incZ ∧
    exec .incZ s = .next { s with rsp := some (.ok (BitVec.setWidth 64 (incFormula key 0x24924924 0xDB6DB6DB 4)) 0 0) } ∧
    decode 0x85 = .ok .incXZ ∧
    exec .incXZ s = .next { s with rsp := some (.ok (BitVec.setWidth 64 (incFormula (incFormula key 0x09249249 0xF6DB6DB6 1) 0x24924924 0xDB6DB6DB 4)) 0 0) } ∧
    decode 0x86 = .ok .incYZ ∧
    exec .incYZ s = .next { s with rsp := some (.ok (BitVec.setWidth 64 (incFormula (incFormula key 0x12492492 0xEDB6DB6D 2) 0x24924924 0xDB6DB6DB 4)) 0 0) } ∧
    decode 0x87 = .ok .incXYZ ∧
    exec .incXYZ s = .next { s with rsp := some (.ok (BitVec.setWidth 64 (incFormula (incFormula (incFormula key 0x09249249 0xF6DB6DB6 1) 0x12492492 0xEDB6DB6D 2) 0x24924924 0xDB6DB6DB 4)) 0 0) }

/-- With key the low 32 bits of REQ.A and the one-axis formula f of the direction, taken with the literal masks,
complements and steps of the rules: the words 0x89 to 0x8F are the seven DEC commands, and each completes, in either
profile and with no fault, with f applied once per selected axis in the order x, y, z, zero-extended in Q0, and
changes nothing but the response. (R91; R92; R93; R94; R95; R96; R97) -/
def Obligations.DecrementCommandsFollowTheirFormulas : Prop :=
  ∀ (s : State) (key : Key), key.toNat = s.req.a.toNat % 2 ^ 32 →
    decode 0x89 = .ok .decX ∧
    exec .decX s = .next { s with rsp := some (.ok (BitVec.setWidth 64 (decFormula key 0x09249249 0xF6DB6DB6 1)) 0 0) } ∧
    decode 0x8A = .ok .decY ∧
    exec .decY s = .next { s with rsp := some (.ok (BitVec.setWidth 64 (decFormula key 0x12492492 0xEDB6DB6D 2)) 0 0) } ∧
    decode 0x8B = .ok .decXY ∧
    exec .decXY s = .next { s with rsp := some (.ok (BitVec.setWidth 64 (decFormula (decFormula key 0x09249249 0xF6DB6DB6 1) 0x12492492 0xEDB6DB6D 2)) 0 0) } ∧
    decode 0x8C = .ok .decZ ∧
    exec .decZ s = .next { s with rsp := some (.ok (BitVec.setWidth 64 (decFormula key 0x24924924 0xDB6DB6DB 4)) 0 0) } ∧
    decode 0x8D = .ok .decXZ ∧
    exec .decXZ s = .next { s with rsp := some (.ok (BitVec.setWidth 64 (decFormula (decFormula key 0x09249249 0xF6DB6DB6 1) 0x24924924 0xDB6DB6DB 4)) 0 0) } ∧
    decode 0x8E = .ok .decYZ ∧
    exec .decYZ s = .next { s with rsp := some (.ok (BitVec.setWidth 64 (decFormula (decFormula key 0x12492492 0xEDB6DB6D 2) 0x24924924 0xDB6DB6DB 4)) 0 0) } ∧
    decode 0x8F = .ok .decXYZ ∧
    exec .decXYZ s = .next { s with rsp := some (.ok (BitVec.setWidth 64 (decFormula (decFormula (decFormula key 0x09249249 0xF6DB6DB6 1) 0x12492492 0xEDB6DB6D 2) 0x24924924 0xDB6DB6DB 4)) 0 0) }

/-- For each of the 14 format-S instructions, every state and profile: it completes with a key in which the coordinate of
each selected axis is stepped by one modulo 1024, each other coordinate and bits 31:30 are those of the operand key;
and when the operand key is canonical the answer is, bit for bit, what MENC answers for the stepped coordinates.
(42_morton_step.md sections 1 and 4 (laws)) -/
def Obligations.StepCommandsMoveEachSelectedAxisModulo1024 : Prop :=
  ∀ (i : Instr) (d : Dir) (axes : List Axis) (s : State) (key : Key), stepForm i = some (d, axes) →
    key.toNat = s.req.a.toNat % 2 ^ 32 →
    ∃ r : Key, exec i s = .next { s with rsp := some (.ok (r.setWidth 64) 0 0) } ∧
      (∀ a : Axis, coord a r = steppedCoord d (axes.contains a) (coord a key)) ∧
      r.getLsbD 30 = key.getLsbD 30 ∧ r.getLsbD 31 = key.getLsbD 31 ∧
      (Canonical key → answerTo s.chk .menc
        (BitVec.ofNat 64 (steppedCoord d (axes.contains .x) (coord .x key)))
        (BitVec.ofNat 64 (steppedCoord d (axes.contains .y) (coord .y key)))
        (BitVec.ofNat 64 (steppedCoord d (axes.contains .z) (coord .z key))) = some (.ok (r.setWidth 64) 0 0))

/-- For the INC and the DEC instruction of one axis set, either profile and every operand: INC then DEC, and DEC then INC,
on the answered key give back the low 32 bits of the operand. (42_morton_step.md section 4 (laws)) -/
def Obligations.DecrementInvertsIncrementOnAllKeys : Prop :=
  ∀ (i j : Instr) (axes : List Axis) (chk : Bool) (v : Word),
    stepForm i = some (.inc, axes) → stepForm j = some (.dec, axes) →
    (∃ q, answerTo chk i v 0 0 = some (.ok q 0 0) ∧ answerTo chk j q 0 0 = some (.ok (keepLow 32 v) 0 0)) ∧
    (∃ q, answerTo chk j v 0 0 = some (.ok q 0 0) ∧ answerTo chk i q 0 0 = some (.ok (keepLow 32 v) 0 0))

/-- For each direction, axis set and 32-bit key: the parallel form computed from the original key equals the engine
applied once per selected axis in turn; and applying the engine on two axes in either order gives one result.
(42_morton_step.md section 1 (compositions)) -/
def Obligations.ParallelStepFormEqualsTheComposition : Prop :=
  (∀ (d : Dir) (ax : BitVec 3) (key : Key), stepParallel d ax key = stepAxes d ax key) ∧
  ∀ (d : Dir) (a b : Axis) (key : Key), engine d (engine d key a) b = engine d (engine d key b) a

/-- Encoding: word 0x42. With a, b the low 32 bits of REQ.A and REQ.B: in either profile KADD completes with a key whose
coordinate on each axis is the sum of those of a and b modulo 1024 and whose bits 31:30 are those of a (this fixes
every bit of the key). It never faults and changes nothing but the response. (43_morton_keyarith.md (KADD; its special
cases on constant keys are statements of their own)) -/
def Obligations.KaddAddsEachAxisModulo1024 : Prop :=
  decode 0x42 = .ok .kadd ∧ ∀ (s : State) (a b : Key),
    a.toNat = s.req.a.toNat % 2 ^ 32 → b.toNat = s.req.b.toNat % 2 ^ 32 →
    ∃ r : Key, exec .kadd s = .next { s with rsp := some (.ok (r.setWidth 64) 0 0) } ∧
      (∀ ax : Axis, coord ax r = (coord ax a + coord ax b) % 1024) ∧
      r.getLsbD 30 = a.getLsbD 30 ∧ r.getLsbD 31 = a.getLsbD 31

/-- Encoding: word 0x43. With a, b the low 32 bits of REQ.A and REQ.B: in either profile KSUB completes with a key whose
coordinate on each axis is the difference of those of a and b modulo 1024 and whose bits 31:30 are those of a (this
fixes every bit of the key). It never faults and changes nothing but the response. (43_morton_keyarith.md (KSUB; its
special cases on constant keys are statements of their own)) -/
def Obligations.KsubSubtractsEachAxisModulo1024 : Prop :=
  decode 0x43 = .ok .ksub ∧ ∀ (s : State) (a b : Key),
    a.toNat = s.req.a.toNat % 2 ^ 32 → b.toNat = s.req.b.toNat % 2 ^ 32 →
    ∃ r : Key, exec .ksub s = .next { s with rsp := some (.ok (r.setWidth 64) 0 0) } ∧
      (∀ ax : Axis, coord ax r = (coord ax a + 1024 - coord ax b) % 1024) ∧
      r.getLsbD 30 = a.getLsbD 30 ∧ r.getLsbD 31 = a.getLsbD 31

/-- Encoding: word 0x44. In either profile KEQ completes with Q0 = 1 when REQ.A and REQ.B agree modulo 2^32, bits 31:30
included, else with Q0 = 0. It never faults and changes nothing but the response. (R102) -/
def Obligations.KeqComparesRawKeys : Prop :=
  decode 0x44 = .ok .keq ∧ ∀ s : State,
    exec .keq s = .next { s with rsp := some (.ok
      (if s.req.a.toNat % 2 ^ 32 = s.req.b.toNat % 2 ^ 32 then 1 else 0) 0 0) }

/-- For every instruction and state, with the violations of the cause table taken in the order A, B, C and the profile
deciding which rows are active: with at least one violation the answer is RangeViolation with the command word and the
record of the first; with none the answer is OK. Nothing but the response changes. (R112) -/
def Obligations.RangeViolationHasExactlyTheTabulatedCauses : Prop :=
  ∀ (i : Instr) (s : State),
    (∀ e rest, offences s.chk i s.req = e :: rest →
      exec i s = .next { s with rsp := some (.range s.req.cmd e.arg e.lo e.hi e.val) }) ∧
    (offences s.chk i s.req = [] →
      ∃ q0 q1 q2 : Word, exec i s = .next { s with rsp := some (.ok q0 q1 q2) })

/-- For every instruction and request with no violation in the checked profile: executed with CFG.CHK = 1 and with CFG.CHK
= 0 it completes with the same response, nothing else changing. (60_exceptions.md section 2 (profile dependence)) -/
def Obligations.InRangeCommandsAnswerAlikeInBothProfiles : Prop :=
  ∀ (i : Instr) (s : State), offences true i s.req = [] → ∃ q0 q1 q2 : Word,
    exec i { s with chk := true } = .next { s with chk := true, rsp := some (.ok q0 q1 q2) } ∧
    exec i { s with chk := false } = .next { s with chk := false, rsp := some (.ok q0 q1 q2) }

/-- For every instruction and state: zeroing every operand field and every operand bit that the narrowing table says is
ignored leaves the response, a fault record included, as it was. (R42) -/
def Obligations.IgnoredOperandBitsDoNotMatter : Prop :=
  ∀ (i : Instr) (s : State), ∃ x : Response,
    exec i s = .next { s with rsp := some x } ∧
    exec i { s with req := narrowed i s.req } = .next { s with req := narrowed i s.req, rsp := some x }

/-- For every instruction and state: if it completes with OK(q0, q1, q2) then q0 lies below 2 to the width of the
command's result (1 for a bit or Boolean, W for a value, 7 for a count, 8 for a byte, 32 for a key, 10 for a
coordinate), and q1, q2 lie below 2^10 for MDEC and are zero otherwise. (R43) -/
def Obligations.ResultsAreZeroExtendedInTheirLanes : Prop :=
  ∀ (i : Instr) (s : State) (q0 q1 q2 : Word), exec i s = .next { s with rsp := some (.ok q0 q1 q2) } →
    q0.toNat < 2 ^ resultBits i ∧ q1.toNat < 2 ^ sideBits i ∧ q2.toNat < 2 ^ sideBits i

/-- For any two states with the same CFG.CHK whose next host step presents the same request: both steps answer next states
with the same response, which is there. Earlier responses, earlier requests and later host steps make no difference.
(R22) -/
def Obligations.ResponseDependsOnlyOnRequestAndProfile : Prop :=
  ∀ (s s' : State) (r : Request) (rest rest' : List HostStep),
    s.inputs = .command r :: rest → s'.inputs = .command r :: rest' → s.chk = s'.chk →
    ∃ (t t' : State) (x : Response), step s = .next t ∧ step s' = .next t' ∧ t.rsp = some x ∧ t'.rsp = some x

/-- For every state whose outstanding host steps are commands, in any order: executing them all gives one response per
command, in order, and each response is the one that command gets when it is the only command after a reset with strap
CFG.CHK. So no command, faulting ones included, affects another, and any serialisation gives each command the same
response. (20_memory.md section 4 (ordering); 60_exceptions.md section 4; 70_reset_and_hazards.md section 3
(concurrency)) -/
def Obligations.RunOfCommandsAnswersEachAsIfAlone : Prop :=
  ∀ (s : State) (reqs : List Request), s.inputs = reqs.map HostStep.command →
    responsesIn reqs.length s =
      reqs.flatMap (fun r => responsesIn 1 (present (State.resetWith s.chk) r)) ∧
    (responsesIn reqs.length s).length = reqs.length

/-- For every number of steps and every state with no reset among the outstanding host steps: if the run reaches a state
then CFG.CHK there is what it was; and the run reaches one. The spec fixes this for the steps that execute commands;
that the steps beyond the presented ones answer next states too is the model's choice (log entry 4, DESIGN CHOICE).
(70_reset_and_hazards.md sections 1 (reset) and 3 (agents)) -/
def Obligations.ProfileIsFixedBetweenResets : Prop :=
  ∀ (k : Nat) (s : State), (∀ strap : Bool, HostStep.reset strap ∉ s.inputs) →
    ∃ t : State, Host.Core.run Sys2Proof.core k s = .next t ∧ t.chk = s.chk

/-- For every state in which whatever response is on the port is lawful: if step answers next t then the same holds of t.
Lawful: an OK response only of a legal command with no violation, with empty side lanes unless it is MDEC; a
RangeViolation only with FOP the command word and the record of the first violation, whose value lies above its range;
an IllegalCommand only of a reserved word. (60_exceptions.md sections 1, 2 and 3; 10_state.md section 3 (the response
port)) -/
def Obligations.EveryStepKeepsTheResponseLawful : Prop :=
  ∀ s t : State, Lawful s → step s = .next t → Lawful t

/-- After reset with either strap value, and in State.reset, whatever response is on the port (none) is lawful.
(10_state.md section 5 (reset values)) -/
def Obligations.ResetIsLawful : Prop :=
  (∀ strap : Bool, Lawful (State.resetWith strap)) ∧ Lawful State.reset

/-- OK has STATUS 0, its lanes and zero fault fields; RangeViolation has STATUS 1, zero lanes, FOP, FARG 1, 2 or 3 for A,
B or C, FLO, FHI and FVAL; IllegalCommand has STATUS 2 and FOP only; STATUS 3 is never produced. (10_state.md section
3 (the response port); 60_exceptions.md section 1 (outcomes)) -/
def Obligations.FlatResponseImageMatchesTheFieldList : Prop :=
  (∀ q0 q1 q2 : Word, (Response.ok q0 q1 q2).fields = ⟨0, q0, q1, q2, 0, 0, 0, 0, 0⟩) ∧
  (∀ (op : Byte) (lo hi val : Word),
    (Response.range op .a lo hi val).fields = ⟨1, 0, 0, 0, op, 1, lo, hi, val⟩ ∧
    (Response.range op .b lo hi val).fields = ⟨1, 0, 0, 0, op, 2, lo, hi, val⟩ ∧
    (Response.range op .c lo hi val).fields = ⟨1, 0, 0, 0, op, 3, lo, hi, val⟩) ∧
  (∀ op : Byte, (Response.illegal op).fields = ⟨2, 0, 0, 0, op, 0, 0, 0, 0⟩) ∧
  ∀ r : Response, r.fields.status ≠ 3

/-- For every width, profile, value and position in range: the lane SETBITAT answers, given to BITAT at that position,
answers 1; the lane UNSETBITAT answers, given to BITAT at that position, answers 0. (40_bit_primitives.md section 5
(laws)) -/
def Obligations.BitReadBackAfterSetAndUnset : Prop :=
  ∀ (chk : Bool) (w : Width) (v pos : Word), pos.toNat < w.bits → ∃ q u : Word,
    answerTo chk (.setBitAt w) v pos 0 = some (.ok q 0 0) ∧ answerTo chk (.bitAt w) q pos 0 = some (.ok 1 0 0) ∧
    answerTo chk (.unsetBitAt w) v pos 0 = some (.ok u 0 0) ∧ answerTo chk (.bitAt w) u pos 0 = some (.ok 0 0 0)

/-- For every width, profile, value and two different positions in range: after SETBITAT, UNSETBITAT or TOGGLEBITAT at the
one, BITAT at the other answers what it answered before. (40_bit_primitives.md section 5 (laws)) -/
def Obligations.SingleBitCommandsLeaveOtherPositionsAlone : Prop :=
  ∀ (chk : Bool) (w : Width) (i : Instr) (v pos other : Word),
    pos.toNat < w.bits → other.toNat < w.bits → pos ≠ other →
    (i = .setBitAt w ∨ i = .unsetBitAt w ∨ i = .toggleBitAt w) →
    ∃ q b : Word, answerTo chk i v pos 0 = some (.ok q 0 0) ∧
      answerTo chk (.bitAt w) q other 0 = some (.ok b 0 0) ∧ answerTo chk (.bitAt w) v other 0 = some (.ok b 0 0)

/-- For every width, profile, value and ordering of the positions 0..W-1: TOGGLEBITAT at each in turn, each taking the
lane of the one before, gives 2^W - 1 - v where v is the low W bits of the start value; doing so again gives v.
(40_bit_primitives.md sections 2 and 5 (laws)) -/
def Obligations.TogglingEveryPositionComplements : Prop :=
  ∀ (chk : Bool) (w : Width) (v : Word) (order : List Nat), order.Perm (List.range w.bits) →
    ∃ u : Word, toggleEach chk w order v = some u ∧ u.toNat = 2 ^ w.bits - 1 - v.toNat % 2 ^ w.bits ∧
      toggleEach chk w order u = some (keepLow w.bits v)

/-- For every width, profile, value and position in range: POPCOUNT of the lane SETBITAT answers, plus BITAT of the value
there, is POPCOUNT of the value plus 1; POPCOUNT of the complemented value plus POPCOUNT of the value is W.
(40_bit_primitives.md section 5 (laws)) -/
def Obligations.PopCountLaws : Prop :=
  ∀ (chk : Bool) (w : Width) (v pos : Word), pos.toNat < w.bits → ∃ q b n m c : Word,
    answerTo chk (.setBitAt w) v pos 0 = some (.ok q 0 0) ∧ answerTo chk (.bitAt w) v pos 0 = some (.ok b 0 0) ∧
    answerTo chk (.popCount w) v 0 0 = some (.ok n 0 0) ∧ answerTo chk (.popCount w) q 0 0 = some (.ok m 0 0) ∧
    answerTo chk (.popCount w) (~~~v) 0 0 = some (.ok c 0 0) ∧
    m.toNat + b.toNat = n.toNat + 1 ∧ c.toNat + n.toNat = w.bits

/-- For every width, value and position in range, and for every position at all in the unchecked profile: SETBIT with
value 1 gives the response of SETBITAT, with value 0 that of UNSETBITAT. (30_encoding.md section 4;
40_bit_primitives.md section 2) -/
def Obligations.SetBitUnifiesSetAndUnset : Prop :=
  ∀ (chk : Bool) (w : Width) (v pos : Word), (pos.toNat < w.bits ∨ chk = false) → ∃ q u : Word,
    answerTo chk (.setBit w) v pos 1 = some (.ok q 0 0) ∧ answerTo chk (.setBitAt w) v pos 0 = some (.ok q 0 0) ∧
    answerTo chk (.setBit w) v pos 0 = some (.ok u 0 0) ∧ answerTo chk (.unsetBitAt w) v pos 0 = some (.ok u 0 0)

/-- For every width, profile, value, replacement and two lanes in range: the lane SETBYTEAT answers, given to BYTEAT at
that lane, answers the low 8 bits of the replacement; at any other lane BYTEAT answers what it answers on the value.
(40_bit_primitives.md section 4 (byte-lane commands)) -/
def Obligations.ByteLaneReadBackAfterReplace : Prop :=
  ∀ (chk : Bool) (w : Width) (v q r b : Word), q.toNat < w.bits / 8 → r.toNat < w.bits / 8 → ∃ u e : Word,
    answerTo chk (.setByteAt w) v q b = some (.ok u 0 0) ∧
    answerTo chk (.byteAt w) u q 0 = some (.ok (keepLow 8 b) 0 0) ∧
    answerTo chk (.byteAt w) v r 0 = some (.ok e 0 0) ∧
    (r ≠ q → answerTo chk (.byteAt w) u r 0 = some (.ok e 0 0))

/-- For each of the four widths and every value of that width: the SWAR form on the 64-bit datapath, given the zero-
extended value, equals the per-bit count. The SWAR form and its constants are no rule of the spec, which marks them
informative and from general knowledge; the model takes them as PRESUMED (log entry 13) and no meaning uses them.
(40_bit_primitives.md section 5 (laws and implementation notes)) -/
def Obligations.SwarPopCountEqualsThePerBitCount : Prop :=
  ∀ (w : Width) (v : BitVec w.bits), swarPopCount (v.setWidth 64) = BitVec.ofNat 64 (popCount v)

/-- Each axis mask has a 1 exactly at the bits 3i + slot for i in 0..9; the masks are pairwise disjoint and their union is
0x3FFFFFFF; MU is 0xC0000000, disjoint from each axis mask, and with it the union is all 32 bits; each axis step is
the weight of the axis's lowest slot. (41_morton_codec.md section 1 (key layout and constants)) -/
def Obligations.AxisMasksPartitionTheUsedBits : Prop :=
  (∀ (a : Axis) (j : Nat), (axisMask a).getLsbD j = (decide (j < 30) && decide (j % 3 = slot a))) ∧
  axisMask .x ||| axisMask .y ||| axisMask .z = 0x3FFFFFFF#32 ∧
  axisMask .x ||| axisMask .y ||| axisMask .z ||| unusedMask = 0xFFFFFFFF#32 ∧
  (∀ a : Axis, axisStep a = 1#32 <<< slot a) ∧
  axisMask .x &&& axisMask .y = 0 ∧ axisMask .x &&& axisMask .z = 0 ∧ axisMask .y &&& axisMask .z = 0 ∧
  unusedMask = 0xC0000000#32 ∧ ∀ a : Axis, axisMask a &&& unusedMask = 0

/-- For every 32-bit n: Gather10(Spread10(n)) is n modulo 1024, and Spread10(Gather10(n)) is n & MX. (41_morton_codec.md
section 1) -/
def Obligations.SpreadAndGatherAreInverse : Prop :=
  ∀ n : Key, (gather10 (spread10 n)).toNat = n.toNat % 1024 ∧ spread10 (gather10 n) = n &&& 0x09249249#32

/-- For every 32-bit n the pre-masked shift-16, shift-8, shift-4, shift-2 ladder gives Spread10(n). The ladder's step
masks are marked informative and from general knowledge by the spec, and the pre-mask is the spec's own addition; the
model takes them as PRESUMED (log entry 13) and no meaning uses them. (41_morton_codec.md section 2 (the shift
ladders)) -/
def Obligations.EncoderLadderEqualsSpread10 : Prop :=
  ∀ n : Key, spreadLadder n = spread10 n

/-- For every 32-bit n the shift-2, shift-4, shift-8, shift-16 ladder behind its leading mask gives Gather10(n). The
ladder's masks are marked informative and from general knowledge by the spec; the model takes them as PRESUMED (log
entry 13) and no meaning uses them. (41_morton_codec.md section 2 (the shift ladders)) -/
def Obligations.DecoderLadderEqualsGather10 : Prop :=
  ∀ n : Key, gatherLadder n = gather10 n

/-- For all x, y, z in 0..1023 and both profiles MDEC of the key MENC answers is (x, y, z); in the unchecked profile, for
all operands, it is each coordinate modulo 1024; and for every key, in both profiles, MENC of what MDEC answers is the
key's low 30 bits. The spec marks the second and third of these as its own derivations. (41_morton_codec.md section 4
(laws)) -/
def Obligations.MortonRoundTrip : Prop :=
  (∀ (chk : Bool) (x y z : Word), x.toNat ≤ 1023 → y.toNat ≤ 1023 → z.toNat ≤ 1023 → ∃ k : Word,
    answerTo chk .menc x y z = some (.ok k 0 0) ∧ answerTo chk .mdec k 0 0 = some (.ok x y z)) ∧
  (∀ x y z : Word, ∃ k : Word, answerTo false .menc x y z = some (.ok k 0 0) ∧
    answerTo false .mdec k 0 0 = some (.ok (keepLow 10 x) (keepLow 10 y) (keepLow 10 z))) ∧
  (∀ (chk : Bool) (k : Word), ∃ x y z : Word, answerTo chk .mdec k 0 0 = some (.ok x y z) ∧
    answerTo chk .menc x y z = some (.ok (keepLow 30 k) 0 0))

/-- For both profiles and every key below 2^30 there is exactly one triple of coordinates in 0..1023 that MENC answers the
key for, and MDEC of the key answers that triple. (41_morton_codec.md section 4 (laws)) -/
def Obligations.MencIsABijectionOntoCanonicalKeys : Prop :=
  ∀ (chk : Bool) (k : Word), k.toNat < 2 ^ 30 → ∃ x y z : Word,
    answerTo chk .mdec k 0 0 = some (.ok x y z) ∧
    ∀ x' y' z' : Word, (x' = x ∧ y' = y ∧ z' = z) ↔
      (x'.toNat ≤ 1023 ∧ y'.toNat ≤ 1023 ∧ z'.toNat ≤ 1023 ∧ answerTo chk .menc x' y' z' = some (.ok k 0 0))

/-- Every OK answer of MENC has bits 31:30 zero. Each of the 14 step commands, KADD and KSUB completes with a key whose
bits 31:30 are those of REQ.A, so a computation that starts from MENC answers stays canonical. (41_morton_codec.md
section 4 (canonical keys)) -/
def Obligations.KeyCommandsKeepBits31And30 : Prop :=
  (∀ (s : State) (q : Word), exec .menc s = .next { s with rsp := some (.ok q 0 0) } →
    q.getLsbD 30 = false ∧ q.getLsbD 31 = false) ∧
  ∀ (i : Instr) (s : State), (stepForm i ≠ none ∨ i = .kadd ∨ i = .ksub) → ∃ q : Word,
    exec i s = .next { s with rsp := some (.ok q 0 0) } ∧
    q.getLsbD 30 = s.req.a.getLsbD 30 ∧ q.getLsbD 31 = s.req.a.getLsbD 31

/-- For both profiles and all 32-bit a, b: KSUB (KADD a, b), b answers a; KSUB a, a answers a & 0xC0000000; KADD a, 0 and
KSUB a, 0 answer a. (43_morton_keyarith.md (corner cases of KADD and KSUB)) -/
def Obligations.KeySubtractUndoesKeyAdd : Prop :=
  ∀ (chk : Bool) (a b : Word),
    (∃ q : Word, answerTo chk .kadd a b 0 = some (.ok q 0 0) ∧ answerTo chk .ksub q b 0 = some (.ok (keepLow 32 a) 0 0)) ∧
    answerTo chk .ksub a a 0 = some (.ok (a &&& 0xC0000000#64) 0 0) ∧
    answerTo chk .kadd a 0 0 = some (.ok (keepLow 32 a) 0 0) ∧
    answerTo chk .ksub a 0 0 = some (.ok (keepLow 32 a) 0 0)

/-- For both profiles and every key: KADD k, 1 answers as INCX k, KADD k, 2 as INCY k, KADD k, 4 as INCZ k, KADD k, 7 as
INCXYZ k; KSUB the same with DECX, DECY, DECZ, DECXYZ; each answer is an OK response. (43_morton_keyarith.md (corner
cases of KADD and KSUB)) -/
def Obligations.KeyArithmeticWithStepConstantsEqualsStepping : Prop :=
  ∀ (chk : Bool) (k : Word), ∃ x y z t x' y' z' t' : Word,
    answerTo chk .kadd k 1 0 = some (.ok x 0 0) ∧ answerTo chk .incX k 0 0 = some (.ok x 0 0) ∧
    answerTo chk .kadd k 2 0 = some (.ok y 0 0) ∧ answerTo chk .incY k 0 0 = some (.ok y 0 0) ∧
    answerTo chk .kadd k 4 0 = some (.ok z 0 0) ∧ answerTo chk .incZ k 0 0 = some (.ok z 0 0) ∧
    answerTo chk .kadd k 7 0 = some (.ok t 0 0) ∧ answerTo chk .incXYZ k 0 0 = some (.ok t 0 0) ∧
    answerTo chk .ksub k 1 0 = some (.ok x' 0 0) ∧ answerTo chk .decX k 0 0 = some (.ok x' 0 0) ∧
    answerTo chk .ksub k 2 0 = some (.ok y' 0 0) ∧ answerTo chk .decY k 0 0 = some (.ok y' 0 0) ∧
    answerTo chk .ksub k 4 0 = some (.ok z' 0 0) ∧ answerTo chk .decZ k 0 0 = some (.ok z' 0 0) ∧
    answerTo chk .ksub k 7 0 = some (.ok t' 0 0) ∧ answerTo chk .decXYZ k 0 0 = some (.ok t' 0 0)

/-- For both profiles and canonical keys a, b, c: KADD a, b answers as KADD b, a; and KADD (KADD a, b), c answers as KADD
a, (KADD b, c). (43_morton_keyarith.md (corner cases of KADD)) -/
def Obligations.KeyAddIsCommutativeAndAssociativeOnCanonicalKeys : Prop :=
  ∀ (chk : Bool) (a b c : Word), a.toNat < 2 ^ 30 → b.toNat < 2 ^ 30 → c.toNat < 2 ^ 30 → ∃ p q r : Word,
    answerTo chk .kadd a b 0 = some (.ok p 0 0) ∧ answerTo chk .kadd b a 0 = some (.ok p 0 0) ∧
    answerTo chk .kadd b c 0 = some (.ok q 0 0) ∧
    answerTo chk .kadd p c 0 = some (.ok r 0 0) ∧ answerTo chk .kadd a q 0 = some (.ok r 0 0)

/-- For both profiles: on keys below 2^30 KEQ answers 1 exactly when MDEC answers the same for both; and for any two
32-bit keys on which MDEC answers the same, KEQ answers 1 exactly when bits 31:30 agree. (43_morton_keyarith.md (raw
and decoded equality)) -/
def Obligations.RawAndDecodedEqualityAgreeOnCanonicalKeys : Prop :=
  ∀ (chk : Bool) (a b : Word),
    (a.toNat < 2 ^ 30 → b.toNat < 2 ^ 30 →
      (answerTo chk .keq a b 0 = some (.ok 1 0 0) ↔ answerTo chk .mdec a 0 0 = answerTo chk .mdec b 0 0)) ∧
    (answerTo chk .mdec a 0 0 = answerTo chk .mdec b 0 0 →
      (answerTo chk .keq a b 0 = some (.ok 1 0 0) ↔
        a.getLsbD 30 = b.getLsbD 30 ∧ a.getLsbD 31 = b.getLsbD 31))

/-- For either strap and every list of requests written as script lines with literal operands: the run gives a list of
responses, one per line, and ends with CFG.CHK equal to the strap. (70_reset_and_hazards.md section 3 (end of a run)) -/
def Obligations.LiteralScriptsAnswerEveryLine : Prop :=
  ∀ (strap : Bool) (reqs : List Request), ∃ (rs : List Response) (t : State),
    runScript ⟨strap, reqs.map (fun r => ⟨r.cmd, .lit r.a, .lit r.b, .lit r.c⟩)⟩ = some (rs, t) ∧
    rs.length = reqs.length ∧ t.chk = strap

/-- For every host script whose run gives responses rs and end state t: there is one response per line, CFG.CHK at the end
is the strap, and the response to line k is the one a freshly reset BSMC with that strap gives to the request that
line k presents once its references to earlier responses are substituted. (70_reset_and_hazards.md section 3 (end of a
run); 30_encoding.md section 4 (assembler syntax)) -/
def Obligations.ScriptRunAnswersEachLineByItsOwnRequest : Prop :=
  ∀ (sc : Script) (rs : List Response) (t : State), runScript sc = some (rs, t) →
    rs.length = sc.lines.length ∧ t.chk = sc.strap ∧
    ∀ (k : Nat) (l : Line), sc.lines[k]? = some l → ∃ (r : Request) (x : Response),
      lineRequest (rs.take k) l = some r ∧ rs[k]? = some x ∧
      responsesIn 1 (present (State.resetWith sc.strap) r) = [x]
end

