-- ==== Sys2Proof/Laws/State.lean ====
section
/-! SUPPORT. One lemma per field per update of the state, so that no later proof unfolds a record update. -/

namespace Sys2Proof.Machine

@[simp] theorem answer_chk (s : State) (r : Response) : (answer s r).chk = s.chk := rfl
@[simp] theorem answer_req (s : State) (r : Response) : (answer s r).req = s.req := rfl
@[simp] theorem answer_rsp (s : State) (r : Response) : (answer s r).rsp = some r := rfl
@[simp] theorem answer_inputs (s : State) (r : Response) : (answer s r).inputs = s.inputs := rfl

@[simp] theorem accept_chk (s : State) (r : Request) (rest : List HostStep) : (accept s r rest).chk = s.chk := rfl
@[simp] theorem accept_req (s : State) (r : Request) (rest : List HostStep) : (accept s r rest).req = r := rfl
@[simp] theorem accept_rsp (s : State) (r : Request) (rest : List HostStep) : (accept s r rest).rsp = none := rfl
@[simp] theorem accept_inputs (s : State) (r : Request) (rest : List HostStep) : (accept s r rest).inputs = rest := rfl

@[simp] theorem applyReset_chk (strap : Bool) (rest : List HostStep) : (applyReset strap rest).chk = strap := rfl
@[simp] theorem applyReset_req (strap : Bool) (rest : List HostStep) :
    (applyReset strap rest).req = Request.undriven := rfl
@[simp] theorem applyReset_rsp (strap : Bool) (rest : List HostStep) : (applyReset strap rest).rsp = none := rfl
@[simp] theorem applyReset_inputs (strap : Bool) (rest : List HostStep) : (applyReset strap rest).inputs = rest := rfl

@[simp] theorem idle_chk (s : State) : (idle s).chk = s.chk := rfl
@[simp] theorem idle_req (s : State) : (idle s).req = s.req := rfl
@[simp] theorem idle_rsp (s : State) : (idle s).rsp = none := rfl
@[simp] theorem idle_inputs (s : State) : (idle s).inputs = s.inputs := rfl

@[simp] theorem raiseRange_eq (s : State) (e : Violation) :
    raiseRange s e = answer s (.range s.req.cmd e.arg e.lo e.hi e.val) := rfl
@[simp] theorem raiseIllegal_eq (s : State) : raiseIllegal s = answer s (.illegal s.req.cmd) := rfl

@[simp] theorem resetWith_chk (strap : Bool) : (State.resetWith strap).chk = strap := rfl
@[simp] theorem resetWith_rsp (strap : Bool) : (State.resetWith strap).rsp = none := rfl
@[simp] theorem resetWith_inputs (strap : Bool) : (State.resetWith strap).inputs = [] := rfl

@[simp] theorem withFetchWord_chk (s : State) (n w : Nat) : (s.withFetchWord n w).chk = s.chk := rfl
@[simp] theorem withFetchWord_inputs (s : State) (n w : Nat) :
    (s.withFetchWord n w).inputs = .command ⟨tableByte n w, 0, 0, 0⟩ :: s.inputs := rfl

end Sys2Proof.Machine
end

