-- ==== Sys2Proof/Laws/Ops.lean ====
section
/-! SUPPORT. For each shared operation, what it does, said once: later proofs cite these and do not unfold the operation. -/

namespace Sys2Proof.Machine

/-! ### Checks and responses -/

@[simp] theorem checked_ok {α : Type} (s : State) (v : α) (k : α → Result) : checked s (.ok v) k = k v := rfl

@[simp] theorem checked_error {α : Type} (s : State) (e : Violation) (k : α → Result) :
    checked s (.error e) k = .next (raiseRange s e) := rfl

/-- A checked command answers a next state if its continuation does. -/
theorem checked_answers {α : Type} (s : State) (c : Except Violation α) (k : α → Result)
    (hk : ∀ v, c = .ok v → ∃ r, k v = .next (answer s r)) : ∃ r, checked s c k = .next (answer s r) := by
  cases c with
  | error e => exact ⟨_, rfl⟩
  | ok v => exact hk v rfl

theorem return1_answers (s : State) (q : Word) : return1 s q = .next (answer s (.ok q 0 0)) := rfl

theorem return3_answers (s : State) (x y z : Word) : return3 s x y z = .next (answer s (.ok x y z)) := rfl

/-! ### Operand checks -/

theorem Width.bits_pos (w : Width) : 0 < w.bits := by cases w <;> decide

theorem Width.lanes_eq (w : Width) : w.lanes = w.bits / 8 := by cases w <;> rfl

theorem Width.bits_le (w : Width) : w.bits ≤ 64 := by cases w <;> decide

theorem bitPos_ok (chk : Bool) (w : Width) (pos : Word) (h : pos.toNat < w.bits ∨ chk = false) :
    bitPos chk w pos = .ok (pos.toNat % w.bits) := by
  have hw := Width.bits_pos w
  unfold bitPos
  split
  · next hle => rw [Nat.mod_eq_of_lt (by omega)]
  · next hgt =>
    obtain h | rfl := h
    · omega
    · rfl

theorem bitPos_error (w : Width) (pos : Word) (h : w.bits ≤ pos.toNat) :
    bitPos true w pos = .error ⟨.b, 0, BitVec.ofNat 64 (w.bits - 1), pos⟩ := by
  have hw := Width.bits_pos w
  unfold bitPos
  rw [if_neg (by omega)]
  rfl

theorem lanePos_ok (chk : Bool) (w : Width) (pos : Word) (h : pos.toNat < w.bits / 8 ∨ chk = false) :
    lanePos chk w pos = .ok (pos.toNat % (w.bits / 8)) := by
  have hw : 0 < w.lanes := by cases w <;> decide
  rw [← Width.lanes_eq] at h ⊢
  unfold lanePos
  split
  · next hle => rw [Nat.mod_eq_of_lt (by omega)]
  · next hgt =>
    obtain h | rfl := h
    · omega
    · rfl

theorem lanePos_error (w : Width) (pos : Word) (h : w.bits / 8 ≤ pos.toNat) :
    lanePos true w pos = .error ⟨.b, 0, BitVec.ofNat 64 (w.bits / 8 - 1), pos⟩ := by
  have hw : 0 < w.lanes := by cases w <;> decide
  rw [← Width.lanes_eq] at h ⊢
  unfold lanePos
  rw [if_neg (by omega)]
  rfl

theorem bitValue_ok (c : Word) (h : c.toNat ≤ 1) : bitValue c = .ok (c.setWidth 1) := by
  unfold bitValue
  rw [if_neg (by omega)]

theorem bitValue_error (c : Word) (h : 1 < c.toNat) : bitValue c = .error ⟨.c, 0, 1, c⟩ := by
  unfold bitValue
  rw [if_pos h]

theorem coordinate_ok (chk : Bool) (arg : Arg) (n : Key) (h : n.toNat ≤ 1023 ∨ chk = false) :
    coordinate chk arg n = .ok n := by
  unfold coordinate
  rw [if_neg]
  rintro ⟨hc, hn⟩
  have hn' : 1023 < n.toNat := hn
  obtain h | h := h
  · omega
  · rw [h] at hc; exact Bool.noConfusion hc

theorem coordinate_error (arg : Arg) (n : Key) (h : 1023 < n.toNat) :
    coordinate true arg n = .error ⟨arg, 0, 1023, zext64 n⟩ := by
  unfold coordinate
  rw [if_pos ⟨rfl, h⟩]
  rfl

/-! ### Bits of the operations -/

@[simp] theorem getLsbD_zext64 {n : Nat} (v : BitVec n) (j : Nat) :
    (zext64 v).getLsbD j = (decide (j < 64) && v.getLsbD j) := by simp [zext64]

theorem getLsbD_one_shift {n : Nat} (p j : Nat) :
    (1#n <<< p).getLsbD j = (decide (j < n) && decide (j = p)) := by
  rw [BitVec.getLsbD_shiftLeft, BitVec.getLsbD_one, Bool.eq_iff_iff]
  simp only [Bool.and_eq_true, Bool.not_eq_true', decide_eq_true_eq, decide_eq_false_iff_not]
  omega

theorem getLsbD_readBit {n : Nat} (v : BitVec n) (p j : Nat) :
    (readBit v p).getLsbD j = (decide (j = 0) && v.getLsbD p) := by
  unfold readBit
  rcases Nat.eq_zero_or_pos n with rfl | hn
  · simp
  · rcases Nat.eq_zero_or_pos j with rfl | hj
    · simp [hn]
    · simp [BitVec.getLsbD_one, Nat.ne_of_gt hj]

theorem getLsbD_forceOne {n : Nat} (v : BitVec n) (p j : Nat) :
    (forceOne v p).getLsbD j = (decide (j < n) && (v.getLsbD j || decide (j = p))) := by
  unfold forceOne
  rw [BitVec.getLsbD_or, getLsbD_one_shift]
  by_cases h : j < n
  · simp [h]
  · simp [h, BitVec.getLsbD_of_ge v j (by omega)]

theorem getLsbD_forceZero {n : Nat} (v : BitVec n) (p j : Nat) :
    (forceZero v p).getLsbD j = (decide (j < n) && v.getLsbD j && !decide (j = p)) := by
  unfold forceZero
  rw [BitVec.getLsbD_and, BitVec.getLsbD_not, getLsbD_one_shift]
  by_cases h : j < n
  · simp [h]
  · simp [h]

theorem getLsbD_flipBit {n : Nat} (v : BitVec n) (p j : Nat) :
    (flipBit v p).getLsbD j = (decide (j < n) && (v.getLsbD j != decide (j = p))) := by
  unfold flipBit
  rw [BitVec.getLsbD_xor, getLsbD_one_shift]
  by_cases h : j < n
  · simp [h]
  · simp [h, BitVec.getLsbD_of_ge v j (by omega)]

theorem getLsbD_assignBit {n : Nat} (v : BitVec n) (p : Nat) (b : BitVec 1) (j : Nat) :
    (assignBit v p b).getLsbD j =
      (decide (j < n) && (if j = p then b.getLsbD 0 else v.getLsbD j)) := by
  unfold assignBit
  rw [BitVec.getLsbD_or, BitVec.getLsbD_and, BitVec.getLsbD_not, getLsbD_one_shift, BitVec.getLsbD_shiftLeft,
    BitVec.getLsbD_setWidth]
  by_cases h : j < n
  · rcases Nat.lt_trichotomy j p with hjp | rfl | hjp
    · simp [h, hjp, Nat.ne_of_lt hjp]
    · simp [h, show 0 < n by omega]
    · have h0 : b.getLsbD (j - p) = false := BitVec.getLsbD_of_ge b _ (by omega)
      simp [h, h0, Nat.ne_of_gt hjp]
  · simp [h]

theorem getLsbD_byteMask {n : Nat} (j : Nat) : (0xFF#n).getLsbD j = (decide (j < n) && decide (j < 8)) := by
  rw [BitVec.getLsbD_ofNat]
  congr 1
  rw [show (0xFF : Nat) = 2 ^ 8 - 1 from rfl, Nat.testBit_two_pow_sub_one]

theorem getLsbD_readLane {n : Nat} (v : BitVec n) (m j : Nat) :
    (readLane v m).getLsbD j = (decide (j < 8) && v.getLsbD (m + j)) := by
  unfold readLane
  rw [BitVec.getLsbD_and, getLsbD_byteMask, BitVec.getLsbD_ushiftRight]
  by_cases h : j < n
  · simp [h, Bool.and_comm]
  · simp [h, BitVec.getLsbD_of_ge v (m + j) (by omega)]

theorem getLsbD_replaceLane {n : Nat} (v : BitVec n) (m : Nat) (b : Byte) (j : Nat) :
    (replaceLane v m b).getLsbD j =
      (decide (j < n) && (if m ≤ j ∧ j < m + 8 then b.getLsbD (j - m) else v.getLsbD j)) := by
  unfold replaceLane
  rw [BitVec.getLsbD_or, BitVec.getLsbD_and, BitVec.getLsbD_not, BitVec.getLsbD_shiftLeft, BitVec.getLsbD_shiftLeft,
    getLsbD_byteMask, BitVec.getLsbD_setWidth]
  by_cases h : j < n
  · by_cases hm : m ≤ j
    · by_cases h8 : j < m + 8
      · simp [h, hm, h8, show ¬ j < m by omega, show j - m < n by omega, show j - m < 8 by omega]
      · have h0 : b.getLsbD (j - m) = false := BitVec.getLsbD_of_ge b _ (by omega)
        simp [h, hm, h8, h0, show ¬ j - m < 8 by omega]
    · simp [h, hm, show j < m by omega]
  · simp [h]

/-- The per-bit count is the number of positions below i with a 1 bit (R59). -/
theorem countOnes_eq_card {n : Nat} (i : Nat) (v : BitVec n) :
    countOnes i v = ((Finset.range i).filter (fun j => v.getLsbD j = true)).card := by
  induction i with
  | zero => rfl
  | succ i ih =>
    rw [countOnes, ih, Finset.range_add_one, Finset.filter_insert]
    cases h : v.getLsbD i <;> simp

theorem countOnes_le {n : Nat} (i : Nat) (v : BitVec n) : countOnes i v ≤ i := by
  induction i with
  | zero => exact Nat.le_refl _
  | succ i ih =>
    have := Bool.toNat_le (v.getLsbD i)
    rw [countOnes]
    omega

/-! ### Spreading, gathering, and the axis engines -/

theorem getLsbD_bit_shift (n : Key) (i k j : Nat) :
    (((n >>> i) &&& 1) <<< k).getLsbD j = (decide (j < 32) && decide (j = k) && n.getLsbD i) := by
  rw [BitVec.getLsbD_shiftLeft, BitVec.getLsbD_and, BitVec.getLsbD_ushiftRight]
  have h1 : (1 : Key).getLsbD (j - k) = decide (j - k = 0) := by
    rw [show (1 : Key) = 1#32 from rfl, BitVec.getLsbD_one]
    simp
  rw [h1]
  rcases Nat.lt_trichotomy j k with h | rfl | h
  · simp [h, Nat.ne_of_lt h]
  · simp
  · simp [Nat.ne_of_gt h, show ¬ j - k = 0 by omega]

theorem getLsbD_spreadBits (i : Nat) (n : Key) (j : Nat) (hi : i ≤ 10) :
    (spreadBits i n).getLsbD j = (decide (j < 3 * i) && decide (j % 3 = 0) && n.getLsbD (j / 3)) := by
  induction i with
  | zero => simp [spreadBits]
  | succ i ih =>
    rw [spreadBits, BitVec.getLsbD_or, ih (by omega), getLsbD_bit_shift]
    by_cases hj : j = 3 * i
    · subst hj
      simp [show 3 * i < 32 by omega]
    · by_cases h3 : j % 3 = 0
      · simp only [hj, h3, decide_false, decide_true, Bool.and_false, Bool.false_and, Bool.or_false, Bool.and_true]
        congr 1
        simp only [decide_eq_decide]
        omega
      · simp [hj, h3]

/-- R69: `Spread10` puts bit i of n at bit 3i, for i in 0..9, and nothing else anywhere. -/
theorem getLsbD_spread10 (n : Key) (j : Nat) :
    (spread10 n).getLsbD j = (decide (j < 30) && decide (j % 3 = 0) && n.getLsbD (j / 3)) :=
  getLsbD_spreadBits 10 n j (Nat.le_refl _)

theorem getLsbD_gatherBits (i : Nat) (n : Key) (j : Nat) (hi : i ≤ 10) :
    (gatherBits i n).getLsbD j = (decide (j < i) && n.getLsbD (3 * j)) := by
  induction i with
  | zero => simp [gatherBits]
  | succ i ih =>
    rw [gatherBits, BitVec.getLsbD_or, ih (by omega), getLsbD_bit_shift]
    by_cases hj : j = i
    · subst hj
      simp [show j < 32 by omega]
    · simp only [hj, decide_false, Bool.and_false, Bool.false_and, Bool.or_false]
      congr 1
      simp only [decide_eq_decide]
      omega

/-- R70: `Gather10` puts bit 3i of n at bit i, for i in 0..9, and nothing else anywhere. -/
theorem getLsbD_gather10 (n : Key) (j : Nat) :
    (gather10 n).getLsbD j = (decide (j < 10) && n.getLsbD (3 * j)) :=
  getLsbD_gatherBits 10 n j (Nat.le_refl _)

/-- R74: the key of three coordinates has bit i of x, y, z at bit 3i, 3i+1, 3i+2, for i in 0..9, and nothing else anywhere. -/
theorem getLsbD_encodeKey (x y z : Key) (j : Nat) :
    (encodeKey x y z).getLsbD j = (decide (j < 30) &&
      (if j % 3 = 0 then x.getLsbD (j / 3) else if j % 3 = 1 then y.getLsbD (j / 3) else z.getLsbD (j / 3))) := by
  unfold encodeKey
  rw [BitVec.getLsbD_or, BitVec.getLsbD_or, BitVec.getLsbD_shiftLeft, BitVec.getLsbD_shiftLeft, getLsbD_spread10,
    getLsbD_spread10, getLsbD_spread10]
  by_cases h : j < 30
  · obtain ⟨q, r, hr, rfl⟩ : ∃ q r, r < 3 ∧ j = 3 * q + r := ⟨j / 3, j % 3, Nat.mod_lt _ (by decide), by omega⟩
    interval_cases r
    · rcases q with _ | q
      · simp
      · simp [show ¬ (3 * (q + 1) - 2) % 3 = 0 by omega, show ¬ (3 * (q + 1) - 1) % 3 = 0 by omega]
    · simp [h, show (3 * q + 1) / 3 = q by omega, show 3 * q + 1 < 32 by omega, show 3 * q < 30 by omega,
        show (3 * q + 1) % 3 = 1 by omega, show 3 * q / 3 = q by omega]
      omega
    · simp [h, show (3 * q + 2) / 3 = q by omega, show 3 * q + 2 < 32 by omega, show 3 * q < 30 by omega,
        show (3 * q + 2) % 3 = 2 by omega, show 3 * q / 3 = q by omega, show (3 * q + 1) % 3 = 1 by omega]
  · have : ¬ j < 32 ∨ j = 30 ∨ j = 31 := by omega
    rcases this with h' | rfl | rfl <;> simp [*]

/-- The lowest key bit of an axis (R71). -/
theorem axisStep_eq (a : Axis) : axisStep a = 1#32 <<< (match a with | .x => 0 | .y => 1 | .z => 2) := by
  cases a <;> rfl

/-- R75: bit i of a decoded coordinate is key bit 3i, 3i+1 or 3i+2, for i in 0..9, and every other bit is zero. -/
theorem getLsbD_decodeAxis (key : Key) (a : Axis) (j : Nat) :
    (decodeAxis key a).getLsbD j =
      (decide (j < 10) && key.getLsbD (3 * j + (match a with | .x => 0 | .y => 1 | .z => 2))) := by
  cases a <;> simp only [decodeAxis, getLsbD_gather10, BitVec.getLsbD_ushiftRight] <;> congr 2 <;> omega

/-- The recombination both engines end in: outside the mask it is the key. -/
theorem getLsbD_recombine_outside (v key m : Key) (j : Nat) (h : m.getLsbD j = false) :
    ((v &&& m) ||| (key &&& ~~~m)).getLsbD j = key.getLsbD j := by
  by_cases hj : j < 32
  · rw [BitVec.getLsbD_or, BitVec.getLsbD_and, BitVec.getLsbD_and, BitVec.getLsbD_not, h]
    simp [hj]
  · rw [BitVec.getLsbD_of_ge _ _ (by omega), BitVec.getLsbD_of_ge _ _ (by omega)]

/-- R80: the increment returns every bit outside the axis mask unchanged. -/
theorem getLsbD_incAxis_outside (key m st : Key) (j : Nat) (h : m.getLsbD j = false) :
    (incAxis key m st).getLsbD j = key.getLsbD j :=
  getLsbD_recombine_outside _ _ _ _ h

/-- R81: so does the decrement. -/
theorem getLsbD_decAxis_outside (key m st : Key) (j : Nat) (h : m.getLsbD j = false) :
    (decAxis key m st).getLsbD j = key.getLsbD j :=
  getLsbD_recombine_outside _ _ _ _ h

/-- Both engines leave every bit outside the axis's slots alone, bits 31:30 among them (R80, R81). -/
theorem getLsbD_engine_outside (d : Dir) (key : Key) (a : Axis) (j : Nat) (h : (axisMask a).getLsbD j = false) :
    (engine d key a).getLsbD j = key.getLsbD j := by
  cases d with
  | inc => exact getLsbD_incAxis_outside _ _ _ _ h
  | dec => exact getLsbD_decAxis_outside _ _ _ _ h

/-- `Step` leaves bits 31:30 alone, whatever the direction and the axis set (R82). -/
theorem getLsbD_stepAxes_unused (d : Dir) (ax : BitVec 3) (key : Key) (j : Nat) (h : j = 30 ∨ j = 31) :
    (stepAxes d ax key).getLsbD j = key.getLsbD j := by
  have hs : ∀ (a : Axis) (b : Bool) (k : Key), (stepIf d a b k).getLsbD j = k.getLsbD j := by
    intro a b k
    cases b with
    | false => rfl
    | true => exact getLsbD_engine_outside d k a j (by rcases h with rfl | rfl <;> cases a <;> decide)
  unfold stepAxes
  rw [hs, hs, hs]

/-- One axis of KADD lies in the axis's slots (R100). -/
theorem getLsbD_addAxis_outside (a b : Key) (ax : Axis) (j : Nat) (h : (axisMask ax).getLsbD j = false) :
    (addAxis a b ax).getLsbD j = false := by
  rw [addAxis, BitVec.getLsbD_and, h, Bool.and_false]

/-- One axis of KSUB lies in the axis's slots (R101). -/
theorem getLsbD_subAxis_outside (a b : Key) (ax : Axis) (j : Nat) (h : (axisMask ax).getLsbD j = false) :
    (subAxis a b ax).getLsbD j = false := by
  rw [subAxis, BitVec.getLsbD_and, h, Bool.and_false]

/-- KADD keeps bits 31:30 of its first operand (R100). -/
theorem getLsbD_addKeys_unused (a b : Key) (j : Nat) (h : j = 30 ∨ j = 31) :
    (addKeys a b).getLsbD j = a.getLsbD j := by
  have ho : ∀ ax, (addAxis a b ax).getLsbD j = false := fun ax =>
    getLsbD_addAxis_outside a b ax j (by rcases h with rfl | rfl <;> cases ax <;> decide)
  have hu : unusedMask.getLsbD j = true := by rcases h with rfl | rfl <;> decide
  simp only [addKeys, BitVec.getLsbD_or, BitVec.getLsbD_and, ho, hu, Bool.false_or, Bool.and_true]

/-- KSUB keeps bits 31:30 of its first operand (R101). -/
theorem getLsbD_subKeys_unused (a b : Key) (j : Nat) (h : j = 30 ∨ j = 31) :
    (subKeys a b).getLsbD j = a.getLsbD j := by
  have ho : ∀ ax, (subAxis a b ax).getLsbD j = false := fun ax =>
    getLsbD_subAxis_outside a b ax j (by rcases h with rfl | rfl <;> cases ax <;> decide)
  have hu : unusedMask.getLsbD j = true := by rcases h with rfl | rfl <;> decide
  simp only [subKeys, BitVec.getLsbD_or, BitVec.getLsbD_and, ho, hu, Bool.false_or, Bool.and_true]

end Sys2Proof.Machine
end

