-- ==== Sys2Proof/Laws/PerInstr.lean ====
section
/-! SUPPORT. The family `TableRow`: each instruction's word matches its own row of spec/opcode_table.json (match and mask, the
words listed there), and is legal. One lemma per constructor of `Instr`. -/

namespace Sys2Proof.Laws

/-- `match` and `mask` of a row of spec/opcode_table.json, by its mnemonic. -/
def tableRow (mnemonic : String) : Option (Byte × Byte) :=
  List.lookup mnemonic [
    ("BITAT", (0x00, 0xCF)),
    ("SETBITAT", (0x01, 0xCF)),
    ("UNSETBITAT", (0x02, 0xCF)),
    ("TOGGLEBITAT", (0x03, 0xCF)),
    ("SETBIT", (0x04, 0xCF)),
    ("POPCOUNT", (0x05, 0xCF)),
    ("ISPOW2", (0x06, 0xCF)),
    ("BYTEAT", (0x07, 0xCF)),
    ("SETBYTEAT", (0x08, 0xCF)),
    ("MENC", (0x40, 0xFF)),
    ("MDEC", (0x41, 0xFF)),
    ("KADD", (0x42, 0xFF)),
    ("KSUB", (0x43, 0xFF)),
    ("KEQ", (0x44, 0xFF)),
    ("INCX", (0x81, 0xFF)),
    ("INCY", (0x82, 0xFF)),
    ("INCXY", (0x83, 0xFF)),
    ("INCZ", (0x84, 0xFF)),
    ("INCXZ", (0x85, 0xFF)),
    ("INCYZ", (0x86, 0xFF)),
    ("INCXYZ", (0x87, 0xFF)),
    ("DECX", (0x89, 0xFF)),
    ("DECY", (0x8A, 0xFF)),
    ("DECXY", (0x8B, 0xFF)),
    ("DECZ", (0x8C, 0xFF)),
    ("DECXZ", (0x8D, 0xFF)),
    ("DECYZ", (0x8E, 0xFF)),
    ("DECXYZ", (0x8F, 0xFF))]

/-- The word of `i`, under the mask of the row with its mnemonic, is that row's match, and the word is legal (R45, R46). -/
def TableRow.Statement (i : Instr) : Prop :=
  (tableRow i.mnemonic).map (fun row => encode i &&& row.2) = (tableRow i.mnemonic).map (fun row => row.1) ∧
    (tableRow i.mnemonic).isSome = true ∧ legalCommand (encode i) = true

theorem TableRow.bitAt (w : Width) : TableRow.Statement (.bitAt w) := by
  cases w <;> exact ⟨by decide, by decide, by decide⟩

theorem TableRow.setBitAt (w : Width) : TableRow.Statement (.setBitAt w) := by
  cases w <;> exact ⟨by decide, by decide, by decide⟩

theorem TableRow.unsetBitAt (w : Width) : TableRow.Statement (.unsetBitAt w) := by
  cases w <;> exact ⟨by decide, by decide, by decide⟩

theorem TableRow.toggleBitAt (w : Width) : TableRow.Statement (.toggleBitAt w) := by
  cases w <;> exact ⟨by decide, by decide, by decide⟩

theorem TableRow.setBit (w : Width) : TableRow.Statement (.setBit w) := by
  cases w <;> exact ⟨by decide, by decide, by decide⟩

theorem TableRow.popCount (w : Width) : TableRow.Statement (.popCount w) := by
  cases w <;> exact ⟨by decide, by decide, by decide⟩

theorem TableRow.isPow2 (w : Width) : TableRow.Statement (.isPow2 w) := by
  cases w <;> exact ⟨by decide, by decide, by decide⟩

theorem TableRow.byteAt (w : Width) : TableRow.Statement (.byteAt w) := by
  cases w <;> exact ⟨by decide, by decide, by decide⟩

theorem TableRow.setByteAt (w : Width) : TableRow.Statement (.setByteAt w) := by
  cases w <;> exact ⟨by decide, by decide, by decide⟩

theorem TableRow.menc : TableRow.Statement .menc :=
  ⟨by decide, by decide, by decide⟩

theorem TableRow.mdec : TableRow.Statement .mdec :=
  ⟨by decide, by decide, by decide⟩

theorem TableRow.kadd : TableRow.Statement .kadd :=
  ⟨by decide, by decide, by decide⟩

theorem TableRow.ksub : TableRow.Statement .ksub :=
  ⟨by decide, by decide, by decide⟩

theorem TableRow.keq : TableRow.Statement .keq :=
  ⟨by decide, by decide, by decide⟩

theorem TableRow.incX : TableRow.Statement .incX :=
  ⟨by decide, by decide, by decide⟩

theorem TableRow.incY : TableRow.Statement .incY :=
  ⟨by decide, by decide, by decide⟩

theorem TableRow.incXY : TableRow.Statement .incXY :=
  ⟨by decide, by decide, by decide⟩

theorem TableRow.incZ : TableRow.Statement .incZ :=
  ⟨by decide, by decide, by decide⟩

theorem TableRow.incXZ : TableRow.Statement .incXZ :=
  ⟨by decide, by decide, by decide⟩

theorem TableRow.incYZ : TableRow.Statement .incYZ :=
  ⟨by decide, by decide, by decide⟩

theorem TableRow.incXYZ : TableRow.Statement .incXYZ :=
  ⟨by decide, by decide, by decide⟩

theorem TableRow.decX : TableRow.Statement .decX :=
  ⟨by decide, by decide, by decide⟩

theorem TableRow.decY : TableRow.Statement .decY :=
  ⟨by decide, by decide, by decide⟩

theorem TableRow.decXY : TableRow.Statement .decXY :=
  ⟨by decide, by decide, by decide⟩

theorem TableRow.decZ : TableRow.Statement .decZ :=
  ⟨by decide, by decide, by decide⟩

theorem TableRow.decXZ : TableRow.Statement .decXZ :=
  ⟨by decide, by decide, by decide⟩

theorem TableRow.decYZ : TableRow.Statement .decYZ :=
  ⟨by decide, by decide, by decide⟩

theorem TableRow.decXYZ : TableRow.Statement .decXYZ :=
  ⟨by decide, by decide, by decide⟩

end Sys2Proof.Laws
end

