-- ==== Sys2Proof/Laws/Step.lean ====
section
/-! SUPPORT. What a step can do, said once: every invariant is derived from this. -/

namespace Sys2Proof.Machine

/-- If step answers next t, then BSMC waited, was reset, executed the decoded command, or answered IllegalCommand. -/
theorem step_cases (s t : State) (h : step s = .next t) :
    (s.inputs = [] ∧ t = idle s) ∨
    (∃ strap rest, s.inputs = .reset strap :: rest ∧ t = applyReset strap rest) ∨
    (∃ r rest i, s.inputs = .command r :: rest ∧ decode r.cmd = .ok i ∧ exec i (accept s r rest) = .next t) ∨
    (∃ r rest e, s.inputs = .command r :: rest ∧ decode r.cmd = .error e ∧ t = raiseIllegal (accept s r rest)) := by
  unfold step at h
  split at h
  · next hi => exact .inl ⟨hi, (Host.Outcome.next.inj h).symm⟩
  · next strap rest hi => exact .inr (.inl ⟨strap, rest, hi, (Host.Outcome.next.inj h).symm⟩)
  · next r rest hi =>
    split at h
    · next i hd => exact .inr (.inr (.inl ⟨r, rest, i, hi, hd, h⟩))
    · next e hd => exact .inr (.inr (.inr ⟨r, rest, e, hi, hd, (Host.Outcome.next.inj h).symm⟩))

end Sys2Proof.Machine
end

