-- ==== Sys2Proof/Tests/Slice0.lean ====
section
/-! SUPPORT. Tests: expected values come from spec/95_test_vectors.md and from the encodings of spec/30_encoding.md, never from the
model. Then the witnesses: for each statement with hypotheses, concrete values that meet them, at the boundary of each clause. -/

namespace Sys2Proof.Tests

open Sys2Proof.Machine

/-- A state whose request port carries a command word and operands. -/
def port (chk : Bool) (cmd : Byte) (a b c : Word) : State := ⟨chk, ⟨cmd, a, b, c⟩, none, []⟩

/-- The responses of the one step that executes a presented command after a reset with `chk`. -/
def asked (chk : Bool) (cmd : Byte) (a b c : Word) : List Response :=
  responsesIn 1 (present (State.resetWith chk) ⟨cmd, a, b, c⟩)

/-! ### Well-formedness: an ill-formed term for each check, which the check refuses -/

theorem test_reserved_bit_function : legalCommand 0x09 = false ∧ legalCommand 0x3F = false := by decide
theorem test_reserved_key_function : legalCommand 0x45 = false := by decide
theorem test_reserved_key_zero_field : legalCommand 0x48 = false := by decide
theorem test_reserved_step_zero_field : legalCommand 0x91 = false := by decide
theorem test_reserved_no_axis : legalCommand 0x80 = false ∧ legalCommand 0x88 = false := by decide
theorem test_reserved_group : legalCommand 0xC0 = false ∧ legalCommand 0xFF = false := by decide
theorem test_every_instr_well_formed : Instr.wellFormed .menc = true := by decide

/-- A line may not refer to line 0, to itself or to a later line (R49). -/
theorem test_reference_to_line_zero_refused : Operand.wellFormed 3 (.ref 0 .q0) = false := by decide
theorem test_reference_to_own_line_refused :
    Script.wellFormed ⟨true, [⟨0x81, .ref 1 .q0, .lit 0, .lit 0⟩]⟩ = false := by decide
theorem test_earlier_reference_accepted :
    Script.wellFormed ⟨true, [⟨0x40, .lit 5, .lit 3, .lit 2⟩, ⟨0x81, .ref 1 .q0, .lit 0, .lit 0⟩]⟩ = true := by decide

/-! ### Decoding: a word of every constructor, bit by bit from R37 to R40 -/

theorem test_decode_format_b :
    decode 0b00000000 = .ok (.bitAt .w8) ∧ decode 0b00010001 = .ok (.setBitAt .w16) ∧
    decode 0b00100010 = .ok (.unsetBitAt .w32) ∧ decode 0b00110011 = .ok (.toggleBitAt .w64) ∧
    decode 0b00000100 = .ok (.setBit .w8) ∧ decode 0b00010101 = .ok (.popCount .w16) ∧
    decode 0b00100110 = .ok (.isPow2 .w32) ∧ decode 0b00110111 = .ok (.byteAt .w64) ∧
    decode 0b00001000 = .ok (.setByteAt .w8) := by decide

theorem test_decode_format_k :
    decode 0b01000000 = .ok .menc ∧ decode 0b01000001 = .ok .mdec ∧ decode 0b01000010 = .ok .kadd ∧
    decode 0b01000011 = .ok .ksub ∧ decode 0b01000100 = .ok .keq := by decide

theorem test_decode_format_s :
    decode 0b10000001 = .ok .incX ∧ decode 0b10000010 = .ok .incY ∧ decode 0b10000011 = .ok .incXY ∧
    decode 0b10000100 = .ok .incZ ∧ decode 0b10000101 = .ok .incXZ ∧ decode 0b10000110 = .ok .incYZ ∧
    decode 0b10000111 = .ok .incXYZ ∧ decode 0b10001001 = .ok .decX ∧ decode 0b10001010 = .ok .decY ∧
    decode 0b10001011 = .ok .decXY ∧ decode 0b10001100 = .ok .decZ ∧ decode 0b10001101 = .ok .decXZ ∧
    decode 0b10001110 = .ok .decYZ ∧ decode 0b10001111 = .ok .decXYZ := by decide

theorem test_table_word : decodeTableWord 8 0x24 = some (.setBit .w32) ∧ decodeTableWord 8 0x80 = none := by decide

/-! ### One step of each instruction (spec/95_test_vectors.md sections 2 and 3) -/

theorem test_bitAt_narrows :
    asked true 0x00 0x1FF 7 0 = [.ok 1 0 0] := by decide

theorem test_bitAt_profiles :
    asked true 0x00 158 9 0 ++ asked false 0x00 158 9 0 = [.range 0x00 .b 0 7 9, .ok 1 0 0] := by decide

theorem test_setBitAt_narrows :
    asked true 0x01 0x1234 3 0 = [.ok 0x3C 0 0] := by decide

theorem test_setBitAt_wraps_unchecked :
    asked false 0x21 0 35 0 = [.ok 8 0 0] := by decide

theorem test_unsetBitAt_top :
    asked true 0x32 0xFFFFFFFFFFFFFFFF 63 0 = [.ok 0x7FFFFFFFFFFFFFFF 0 0] := by decide

theorem test_toggleBitAt_unchecked :
    asked false 0x13 0xFFFF 17 0 = [.ok 0xFFFD 0 0] := by decide

theorem test_setBit_position_before_value :
    asked true 0x04 158 9 2 ++ asked false 0x04 158 9 2 = [.range 0x04 .b 0 7 9, .range 0x04 .c 0 1 2] := by decide

theorem test_setBit_value_at_full_width :
    asked false 0x04 158 0 0x100000001 = [.range 0x04 .c 0 1 0x100000001] := by decide

theorem test_popCount_64 :
    asked true 0x35 0x00A8D41277EDF206 0 0 = [.ok 28 0 0] := by decide

theorem test_popCount_narrows :
    asked true 0x25 0x00A8D41277EDF206 0 0 = [.ok 19 0 0] := by decide

theorem test_isPow2_zero_after_narrowing :
    asked true 0x06 256 0 0 = [.ok 0 0 0] := by decide

theorem test_isPow2_top_bit :
    asked true 0x36 0x8000000000000000 0 0 = [.ok 1 0 0] := by decide

theorem test_byteAt_counts_from_the_top :
    asked true 0x37 0x00A8D41277EDF206 1 0 = [.ok 0xA8 0 0] := by decide

theorem test_setByteAt_shift_from_index :
    asked true 0x38 0x00A8D41277EDF206 2 0 = [.ok 0x00A8001277EDF206 0 0] := by decide

theorem test_setByteAt_narrows_byte :
    asked true 0x18 0xABCD 1 0x3FF = [.ok 0xABFF 0 0] := by decide

theorem test_menc_first_offender :
    asked true 0x40 5 2000 3000 ++ asked false 0x40 5 2000 3000 = [.range 0x40 .b 0 1023 2000, .ok 0x36CA6841 0 0] := by decide

theorem test_menc_ignores_high_half :
    asked true 0x40 0x100000005 3 2 = [.ok 0x73 0 0] := by decide

theorem test_mdec_all_bits :
    asked true 0x41 0xDEADBEEF 0 0 = [.ok 767 893 395] := by decide

theorem test_kadd_wraps_x :
    asked true 0x42 0x09248232 0x48046 0 = [.ok 0x402E4 0 0] := by decide

theorem test_kadd_keeps_bits_of_a :
    asked true 0x42 0xC0000073 7 0 ++ asked true 0x42 7 0xC0000073 0 = [.ok 0xC00000EC 0 0, .ok 0xEC 0 0] := by decide

theorem test_ksub_wraps :
    asked true 0x43 0x73 0x6BA8 0 = [.ok 0x3FFF979B 0 0] := by decide

theorem test_keq_is_raw :
    asked true 0x44 0x73 0xC0000073 0 ++ asked true 0x44 0x100000073 0x73 0 = [.ok 0 0 0, .ok 1 0 0] := by decide

theorem test_incX_wraps_in_its_axis :
    asked true 0x81 0x092493EB 0 0 = [.ok 0x1A2 0 0] := by decide

theorem test_incX_passes_bits_31_30 :
    asked true 0x81 0xC0000073 0 0 = [.ok 0xC000007A 0 0] := by decide

theorem test_decX_masks_the_difference :
    asked true 0x89 0x72 0 0 = [.ok 0x3B 0 0] := by decide

theorem test_incY_wraps :
    asked true 0x82 0x1249259B 0 0 = [.ok 0x109 0 0] := by decide

theorem test_incZ_wraps :
    asked true 0x84 0x249249AD 0 0 = [.ok 0x89 0 0] := by decide

theorem test_decY_wraps :
    asked true 0x8A 0x109 0 0 = [.ok 0x1249259B 0 0] := by decide

theorem test_decZ_wraps :
    asked true 0x8C 0x89 0 0 = [.ok 0x249249AD 0 0] := by decide

theorem test_incXYZ_wraps :
    asked true 0x87 0x3FFFFFFF 0 0 = [.ok 0 0 0] := by decide

theorem test_decXYZ_passes_bits_31_30 :
    asked true 0x8F 0xC0000073 0 0 = [.ok 0xC0000054 0 0] := by decide

theorem test_incXY :
    asked true 0x83 0x73 0 0 = [.ok 0xE8 0 0] := by decide

theorem test_incXZ :
    asked true 0x85 0x73 0 0 = [.ok 0x7E 0 0] := by decide

theorem test_incYZ :
    asked true 0x86 0x73 0 0 = [.ok 0xE5 0 0] := by decide

theorem test_decXY :
    asked true 0x8B 0x73 0 0 = [.ok 0x70 0 0] := by decide

theorem test_decXZ :
    asked true 0x8D 0x73 0 0 = [.ok 0x56 0 0] := by decide

theorem test_decYZ :
    asked true 0x8E 0x73 0 0 = [.ok 0x55 0 0] := by decide

theorem test_reserved_word_is_illegal :
    asked true 0x80 0x73 0 0 ++ asked false 0x09 0 99 0 = [.illegal 0x80, .illegal 0x09] := by decide

/-- The flat fields of script P3, lines 1 and 4, under strap = 1. -/
theorem test_flat_fields :
    (Response.range 0x40 .a 0 0x3FF 0x405).fields = ⟨1, 0, 0, 0, 0x40, 1, 0, 0x3FF, 0x405⟩ ∧
    (Response.illegal 0x80).fields = ⟨2, 0, 0, 0, 0x80, 0, 0, 0, 0⟩ := by decide

/-- The ladders and `Spread10` on the values of R69 and section 2.3. -/
theorem test_spread10 : spread10 682 = 0x08208208 ∧ spread10 0x01000000 = 0 ∧ spread10 1029 = 0x41 := by decide
theorem test_ladders : spreadLadder 682 = 0x08208208 ∧ spreadLadder 0x01000000 = 0 ∧ gatherLadder 0xFFFFFFFF = 1023 := by
  decide
theorem test_swar : swarPopCount 0x00A8D41277EDF206 = 28 := by decide

/-- The example of R49, and a line written with too few operands. -/
theorem test_assemble :
    assemble (.bitAt .w8) [.lit 158, .lit 3] = some ⟨0x00, .lit 158, .lit 3, .lit 0⟩ ∧
    assemble .menc [.lit 5] = none ∧ assemblyName (.bitAt .w8) = "BITAT.8" := by decide

/-- `%1.Q0` reads the response to line 1; a lane of a fault response is no result (R109, R134). -/
theorem test_resolve :
    resolve [.ok 0x73 0 0] (.ref 1 .q0) = some 0x73 ∧ resolve [.illegal 0x80] (.ref 1 .q0) = none ∧
    resolve [.ok 0x73 0 0] (.ref 2 .q0) = none := by decide

theorem test_reset_runs_a_fetched_word :
    responsesIn 1 (State.reset.withFetchWord 8 0x87) = [.ok 7 0 0] := by decide

theorem test_reset_step_latches_the_strap :
    step { State.reset with inputs := [.reset false] } = .next (State.resetWith false) := by rfl

/-! ### Witnesses: values that meet the hypotheses of each statement, each clause at its boundary -/

theorem witness_StepRunsTheDecodedCommand :
    (present State.reset ⟨0x40, 5, 3, 2⟩).inputs = .command ⟨0x40, 5, 3, 2⟩ :: [] ∧ decode 0x40 = .ok .menc := by decide

theorem witness_ReservedWordAnswersIllegalCommand :
    (present State.reset ⟨0x80, 1, 0, 0⟩).inputs = .command ⟨0x80, 1, 0, 0⟩ :: [] ∧ illegalCommand 0x80 = true := by decide

theorem witness_ResetStepReplacesTheStateByTheStrap :
    ({ State.reset with inputs := [.reset false] } : State).inputs = .reset false :: [] := by decide

theorem witness_WithNothingPresentedBsmcWaits : State.reset.inputs = [] := by decide

/-- The position clauses: W-1 in the checked profile, W in the unchecked one, W in the checked one. -/
theorem position_clauses_met :
    ((port true 0x00 158 7 0).req.b.toNat < Width.w8.bits ∨ (port true 0x00 158 7 0).chk = false) ∧
    ((port false 0x00 158 8 0).req.b.toNat < Width.w8.bits ∨ (port false 0x00 158 8 0).chk = false) ∧
    ((port true 0x00 158 8 0).chk = true ∧ Width.w8.bits ≤ (port true 0x00 158 8 0).req.b.toNat) := by decide

theorem witness_BitAtReadsOneBit :
    asked true 0x00 158 7 0 = [.ok 1 0 0] ∧ asked false 0x00 158 8 0 = [.ok 0 0 0] ∧
    asked true 0x00 158 8 0 = [.range 0x00 .b 0 7 8] := by decide

theorem witness_SetBitAtForcesOneBitToOne :
    asked true 0x11 0 15 0 = [.ok 0x8000 0 0] ∧ asked false 0x11 0 16 0 = [.ok 1 0 0] ∧
    asked true 0x11 0 16 0 = [.range 0x11 .b 0 15 16] := by decide

theorem witness_UnsetBitAtForcesOneBitToZero :
    asked true 0x02 158 7 0 = [.ok 0x1E 0 0] ∧ asked false 0x02 158 15 0 = [.ok 0x1E 0 0] ∧
    asked true 0x02 158 8 0 = [.range 0x02 .b 0 7 8] := by decide

theorem witness_ToggleBitAtFlipsOneBit :
    asked true 0x03 158 7 0 = [.ok 0x1E 0 0] ∧ asked false 0x03 158 8 0 = [.ok 0x9F 0 0] ∧
    asked true 0x03 158 8 0 = [.range 0x03 .b 0 7 8] := by decide

/-- The value clauses of SETBIT meet at 1 and 2. -/
theorem witness_SetBitAssignsOneBit :
    (1 : Word).toNat ≤ 1 ∧ 1 < (2 : Word).toNat ∧ asked true 0x04 158 7 0 = [.ok 0x1E 0 0] ∧
    asked true 0x04 158 0 1 = [.ok 0x9F 0 0] ∧ asked true 0x04 158 8 1 = [.range 0x04 .b 0 7 8] ∧
    asked true 0x04 158 7 2 = [.range 0x04 .c 0 1 2] ∧ asked false 0x04 158 8 2 = [.range 0x04 .c 0 1 2] := by decide

theorem witness_IsPow2TestsForAPowerOfTwo :
    (16 : BitVec Width.w8.bits).toNat = (port true 0x06 0x110 0 0).req.a.toNat % 2 ^ Width.w8.bits ∧
    asked true 0x06 16 0 0 = [.ok 1 0 0] ∧ asked true 0x06 14 0 0 = [.ok 0 0 0] := by decide

/-- The lane clauses: W/8-1 in the checked profile, W/8 in the unchecked one, W/8 in the checked one. -/
theorem lane_clauses_met :
    ((port true 0x27 0 3 0).req.b.toNat < Width.w32.bits / 8 ∨ (port true 0x27 0 3 0).chk = false) ∧
    ((port false 0x27 0 4 0).req.b.toNat < Width.w32.bits / 8 ∨ (port false 0x27 0 4 0).chk = false) ∧
    ((port true 0x27 0 4 0).chk = true ∧ Width.w32.bits / 8 ≤ (port true 0x27 0 4 0).req.b.toNat) := by decide

theorem witness_ByteAtReadsOneLane :
    asked true 0x27 0x12345678 3 0 = [.ok 0x78 0 0] ∧ asked false 0x27 0x12345678 4 0 = [.ok 0x12 0 0] ∧
    asked true 0x27 0x12345678 4 0 = [.range 0x27 .b 0 3 4] := by decide

theorem witness_SetByteAtReplacesOneLane :
    (0 : Nat) = 8 * (Width.w32.bits / 8 - 1 - (port true 0x28 0x12345678 3 0xAB).req.b.toNat % (Width.w32.bits / 8)) ∧
    asked true 0x28 0x12345678 3 0xAB = [.ok 0x123456AB 0 0] ∧ asked false 0x28 0x12345678 4 0xAB = [.ok 0xAB345678 0 0] ∧
    asked true 0x28 0x12345678 4 0xAB = [.range 0x28 .b 0 3 4] := by decide

/-- The coordinate clauses meet at 1023 and 1024, on each operand, and with the unchecked profile. -/
theorem witness_MencInterleavesThreeCoordinates :
    (port true 0x40 1023 1023 1023).req.a.toNat % 2 ^ 32 = 1023 ∧
    asked true 0x40 1023 1023 1023 = [.ok 0x3FFFFFFF 0 0] ∧ asked false 0x40 1024 1024 1024 = [.ok 0 0 0] ∧
    asked true 0x40 1024 1024 1024 = [.range 0x40 .a 0 1023 1024] ∧
    asked true 0x40 1023 1024 1024 = [.range 0x40 .b 0 1023 1024] ∧
    asked true 0x40 1023 1023 1024 = [.range 0x40 .c 0 1023 1024] := by decide

theorem witness_IncrementCommandsFollowTheirFormulas :
    (0x73 : Key).toNat = (port true 0x81 0x100000073 0 0).req.a.toNat % 2 ^ 32 := by decide

theorem witness_DecrementCommandsFollowTheirFormulas :
    (0x72 : Key).toNat = (port true 0x89 0x100000072 0 0).req.a.toNat % 2 ^ 32 := by decide

/-- A wrapping canonical key: (1023, 5, 6) under INCX; and a key that is not canonical. -/
theorem witness_StepCommandsMoveEachSelectedAxisModulo1024 :
    stepForm .incX = some (.inc, [.x]) ∧ (0x092493EB : Key).toNat = (port true 0x81 0x092493EB 0 0).req.a.toNat % 2 ^ 32 ∧
    ((0x092493EB : Key).getLsbD 30 = false ∧ (0x092493EB : Key).getLsbD 31 = false) ∧
    stepForm .decXYZ = some (.dec, [.x, .y, .z]) ∧ (0xC0000073 : Key).getLsbD 31 = true := by decide

theorem witness_DecrementInvertsIncrementOnAllKeys :
    stepForm .incXZ = some (.inc, [.x, .z]) ∧ stepForm .decXZ = some (.dec, [.x, .z]) := by decide

theorem witness_KaddAddsEachAxisModulo1024 :
    (0x73 : Key).toNat = (port true 0x42 0x73 0x6BA8 0).req.a.toNat % 2 ^ 32 ∧
    (0x6BA8 : Key).toNat = (port true 0x42 0x73 0x6BA8 0).req.b.toNat % 2 ^ 32 := by decide

theorem witness_KsubSubtractsEachAxisModulo1024 :
    (0x6BA8 : Key).toNat = (port true 0x43 0x6BA8 0x73 0).req.a.toNat % 2 ^ 32 ∧
    (0x73 : Key).toNat = (port true 0x43 0x6BA8 0x73 0).req.b.toNat % 2 ^ 32 := by decide

theorem witness_RangeViolationHasExactlyTheTabulatedCauses :
    offences true (.setBit .w8) ⟨0x04, 158, 8, 2⟩ = ⟨.b, 0, 7, 8⟩ :: [⟨.c, 0, 1, 2⟩] ∧
    offences true (.setBit .w8) ⟨0x04, 158, 7, 1⟩ = [] := by decide

theorem witness_InRangeCommandsAnswerAlikeInBothProfiles :
    offences true (.byteAt .w8) (port true 0x07 0x9E 0 0).req = [] := by decide

theorem witness_ResultsAreZeroExtendedInTheirLanes :
    exec .mdec (port true 0x41 0x73 0 0) = .next { port true 0x41 0x73 0 0 with rsp := some (.ok 5 3 2) } := by rfl

theorem witness_ResponseDependsOnlyOnRequestAndProfile :
    (present (port true 0xFF 9 9 9) ⟨0x81, 0x73, 0, 0⟩).inputs = .command ⟨0x81, 0x73, 0, 0⟩ :: [] ∧
    ({ State.resetWith true with inputs := [.command ⟨0x81, 0x73, 0, 0⟩, .reset false] } : State).inputs =
      .command ⟨0x81, 0x73, 0, 0⟩ :: [.reset false] ∧
    (port true 0xFF 9 9 9).chk = (State.resetWith true).chk := by decide

theorem witness_RunOfCommandsAnswersEachAsIfAlone :
    ({ State.reset with inputs := [.command ⟨0x80, 0, 0, 0⟩, .command ⟨0x81, 0x73, 0, 0⟩] } : State).inputs =
      [⟨0x80, 0, 0, 0⟩, ⟨0x81, 0x73, 0, 0⟩].map HostStep.command := by decide

theorem witness_ProfileIsFixedBetweenResets :
    HostStep.reset true ∉ (present State.reset ⟨0x81, 0x73, 0, 0⟩).inputs ∧
    HostStep.reset false ∉ (present State.reset ⟨0x81, 0x73, 0, 0⟩).inputs := by decide

theorem witness_EveryStepKeepsTheResponseLawful :
    Lawful (present State.reset ⟨0x81, 0, 0, 0⟩) ∧
    step (present State.reset ⟨0x81, 0, 0, 0⟩) = .next ⟨true, ⟨0x81, 0, 0, 0⟩, some (.ok 1 0 0), []⟩ :=
  ⟨fun _ h => (by cases h), rfl⟩

theorem witness_BitReadBackAfterSetAndUnset : (7 : Word).toNat < Width.w8.bits := by decide

theorem witness_SingleBitCommandsLeaveOtherPositionsAlone :
    (63 : Word).toNat < Width.w64.bits ∧ (0 : Word).toNat < Width.w64.bits ∧ (63 : Word) ≠ 0 ∧
    (Instr.toggleBitAt .w64 = .setBitAt .w64 ∨ Instr.toggleBitAt .w64 = .unsetBitAt .w64 ∨
      Instr.toggleBitAt .w64 = .toggleBitAt .w64) := by decide

theorem witness_TogglingEveryPositionComplements :
    [7, 0, 1, 6, 2, 5, 3, 4].Perm (List.range Width.w8.bits) := by decide

theorem witness_PopCountLaws : (31 : Word).toNat < Width.w32.bits := by decide

theorem witness_SetBitUnifiesSetAndUnset :
    ((7 : Word).toNat < Width.w8.bits ∨ true = false) ∧ ((8 : Word).toNat < Width.w8.bits ∨ false = false) := by decide

theorem witness_ByteLaneReadBackAfterReplace :
    (3 : Word).toNat < Width.w32.bits / 8 ∧ (0 : Word).toNat < Width.w32.bits / 8 ∧ (0 : Word) ≠ 3 := by decide

theorem witness_MortonRoundTrip : (1023 : Word).toNat ≤ 1023 ∧ (0 : Word).toNat ≤ 1023 := by decide

theorem witness_MencIsABijectionOntoCanonicalKeys : (0x3FFFFFFF : Word).toNat < 2 ^ 30 := by decide

theorem witness_KeyCommandsKeepBits31And30 :
    exec .menc (port true 0x40 5 3 2) = .next { port true 0x40 5 3 2 with rsp := some (.ok 0x73 0 0) } ∧
    (stepForm .incY ≠ none ∨ Instr.incY = .kadd ∨ Instr.incY = .ksub) :=
  ⟨rfl, by decide⟩

theorem witness_KeyAddIsCommutativeAndAssociativeOnCanonicalKeys :
    (0x3FFFFFFF : Word).toNat < 2 ^ 30 ∧ (0x72 : Word).toNat < 2 ^ 30 ∧ (0xE22 : Word).toNat < 2 ^ 30 := by decide

theorem witness_RawAndDecodedEqualityAgreeOnCanonicalKeys :
    (0x73 : Word).toNat < 2 ^ 30 ∧ (0x3FFFFFFF : Word).toNat < 2 ^ 30 ∧
    answerTo true .mdec 0x73 0 0 = answerTo true .mdec 0xC0000073 0 0 := by decide

/-- A two-line script whose second line names the first one's lane, as in script P1 of spec/95_test_vectors.md. -/
theorem witness_ScriptRunAnswersEachLineByItsOwnRequest :
    runScript ⟨true, [⟨0x40, .lit 5, .lit 3, .lit 2⟩, ⟨0x81, .ref 1 .q0, .lit 0, .lit 0⟩]⟩ =
      some ([.ok 0x73 0 0, .ok 0x7A 0 0], ⟨true, ⟨0x81, 0x73, 0, 0⟩, some (.ok 0x7A 0 0), []⟩) := by rfl

end Sys2Proof.Tests
end

