-- ==== Sys2Proof/Proofs/ResponseInputs.lean ====
section
/-! PROOFS. What a response is a function of (spec/10_state.md R22): the request on the port and `CFG.CHK`. Two states that
agree on these two are compared by `AnswersAlike`, first for the shared operations, then for `exec`, then for `step`. -/

namespace Sys2Proof.Machine

/-- The outcomes `p` from `s` and `p'` from `s'` put one and the same response on the port and change nothing else. -/
def AnswersAlike (s s' : State) (p p' : Result) : Prop :=
  ∃ x : Response, p = .next (answer s x) ∧ p' = .next (answer s' x)

theorem return1_answersAlike (s s' : State) (q : Word) : AnswersAlike s s' (return1 s q) (return1 s' q) :=
  ⟨.ok q 0 0, return1_answers s q, return1_answers s' q⟩

theorem return3_answersAlike (s s' : State) (x y z : Word) :
    AnswersAlike s s' (return3 s x y z) (return3 s' x y z) :=
  ⟨.ok x y z, return3_answers s x y z, return3_answers s' x y z⟩

theorem raiseRange_answersAlike {s s' : State} (hreq : s.req = s'.req) (e : Violation) :
    AnswersAlike s s' (.next (raiseRange s e)) (.next (raiseRange s' e)) :=
  ⟨.range s.req.cmd e.arg e.lo e.hi e.val, by rw [raiseRange_eq], by rw [raiseRange_eq, hreq]⟩

theorem raiseIllegal_answersAlike {s s' : State} (hreq : s.req = s'.req) :
    AnswersAlike s s' (.next (raiseIllegal s)) (.next (raiseIllegal s')) :=
  ⟨.illegal s.req.cmd, by rw [raiseIllegal_eq], by rw [raiseIllegal_eq, hreq]⟩

/-- One check outcome either ends both commands with the same fault, or lets both go on with the same operand. -/
theorem checked_answersAlike {α : Type} {s s' : State} (hreq : s.req = s'.req) (c : Except Violation α)
    {k k' : α → Result} (hk : ∀ v, AnswersAlike s s' (k v) (k' v)) :
    AnswersAlike s s' (checked s c k) (checked s' c k') := by
  cases c with
  | error e => simpa only [checked_error] using raiseRange_answersAlike hreq e
  | ok v => simpa only [checked_ok] using hk v

/-- No meaning reads the response port or the outstanding host steps. Once the two states are written with one `chk` and one
`req`, their operands and checks are the same terms, so what is left of a meaning is its shape: its checks, then its result. -/
theorem exec_answersAlike (i : Instr) {s s' : State} (hchk : s.chk = s'.chk) (hreq : s.req = s'.req) :
    AnswersAlike s s' (exec i s) (exec i s') := by
  obtain ⟨chk, req, rsp, inputs⟩ := s
  obtain ⟨chk', req', rsp', inputs'⟩ := s'
  obtain rfl : chk = chk' := hchk
  obtain rfl : req = req' := hreq
  have hreq : (⟨chk, req, rsp, inputs⟩ : State).req = (⟨chk, req, rsp', inputs'⟩ : State).req := rfl
  cases i with
  | bitAt w | setBitAt w | unsetBitAt w | toggleBitAt w =>
    exact checked_answersAlike hreq (bitPos chk w req.b) fun _ => return1_answersAlike _ _ _
  | setBit w =>
    exact checked_answersAlike hreq (bitPos chk w req.b) fun _ =>
      checked_answersAlike hreq (bitValue req.c) fun _ => return1_answersAlike _ _ _
  | byteAt w | setByteAt w =>
    exact checked_answersAlike hreq (lanePos chk w req.b) fun _ => return1_answersAlike _ _ _
  | menc =>
    exact checked_answersAlike hreq (coordinate chk .a (req.a.setWidth 32)) fun _ =>
      checked_answersAlike hreq (coordinate chk .b (req.b.setWidth 32)) fun _ =>
        checked_answersAlike hreq (coordinate chk .c (req.c.setWidth 32)) fun _ => return1_answersAlike _ _ _
  | mdec => exact return3_answersAlike _ _ _ _ _
  | popCount _ | isPow2 _ | kadd | ksub | keq | incX | incY | incXY | incZ | incXZ | incYZ | incXYZ
  | decX | decY | decXY | decZ | decXZ | decYZ | decXYZ => exact return1_answersAlike _ _ _

theorem step_of_command_ok {s : State} {r : Request} {rest : List HostStep} {i : Instr}
    (hin : s.inputs = .command r :: rest) (hd : decode r.cmd = .ok i) : step s = exec i (accept s r rest) := by
  simp only [step, hin, hd]

theorem step_of_command_error {s : State} {r : Request} {rest : List HostStep} {e : Illegal}
    (hin : s.inputs = .command r :: rest) (hd : decode r.cmd = .error e) :
    step s = .next (raiseIllegal (accept s r rest)) := by
  simp only [step, hin, hd]

/-- One request presented to two states of one profile: decoding takes it the same way in both, to a command or to
IllegalCommand. -/
theorem step_answersAlike {s s' : State} {r : Request} {rest rest' : List HostStep}
    (hin : s.inputs = .command r :: rest) (hin' : s'.inputs = .command r :: rest') (hchk : s.chk = s'.chk) :
    AnswersAlike (accept s r rest) (accept s' r rest') (step s) (step s') := by
  have hreq : (accept s r rest).req = (accept s' r rest').req := by rw [accept_req, accept_req]
  cases hd : decode r.cmd with
  | ok i =>
    rw [step_of_command_ok hin hd, step_of_command_ok hin' hd]
    exact exec_answersAlike i (by rw [accept_chk, accept_chk, hchk]) hreq
  | error e =>
    rw [step_of_command_error hin hd, step_of_command_error hin' hd]
    exact raiseIllegal_answersAlike hreq

/-- Settles O33: the two steps answer alike, so the response of one is the response of the other. -/
theorem responseDependsOnlyOnRequestAndProfile : Obligations.ResponseDependsOnlyOnRequestAndProfile := by
  intro s s' r rest rest' hin hin' hchk
  obtain ⟨x, ht, ht'⟩ := step_answersAlike hin hin' hchk
  exact ⟨_, _, x, ht, ht', answer_rsp _ x, answer_rsp _ x⟩

end Sys2Proof.Machine
end

