-- ==== Sys2Proof/Proofs/ReservedWords.lean ====
section
/-! PROOFS. The reserved command words (spec/30_encoding.md R46). R46's own list is compared with the decode procedure of R48
format by format; then every word that decodes is put together again from its fields, so that it is the encoding of what it
decodes to. -/

namespace Sys2Proof

/-! ### The fields of a command word -/

theorem cmdField_group_cases (cmd : Byte) :
    cmdField cmd 7 6 = 0 ∨ cmdField cmd 7 6 = 1 ∨ cmdField cmd 7 6 = 2 ∨ cmdField cmd 7 6 = 3 := by
  have hlt : cmdField cmd 7 6 < 4 := Nat.mod_lt _ (by decide)
  omega

theorem cmdField_wsel_lt (cmd : Byte) : cmdField cmd 5 4 < 4 := Nat.mod_lt _ (by decide)

theorem cmdField_dir_lt (cmd : Byte) : cmdField cmd 3 3 < 2 := Nat.mod_lt _ (by decide)

theorem cmdField_axes_lt (cmd : Byte) : cmdField cmd 2 0 < 8 := Nat.mod_lt _ (by decide)

/-! ### The branches of the decode procedure (R48) -/

theorem decode_formatB {cmd : Byte} (hg : cmdField cmd 7 6 = 0) :
    decode cmd = decodeB (decodeWidth (cmdField cmd 5 4)) (cmdField cmd 3 0) := by
  simp only [decode, hg]

theorem decode_formatK {cmd : Byte} (hg : cmdField cmd 7 6 = 1) (hz : cmdField cmd 5 3 = 0) :
    decode cmd = decodeK (cmdField cmd 2 0) := by
  simp only [decode, hg, hz, if_true]

theorem decode_formatK_nonzero {cmd : Byte} (hg : cmdField cmd 7 6 = 1) (hz : cmdField cmd 5 3 ≠ 0) :
    decode cmd = .error .keyZeroField := by
  simp only [decode, hg, hz, if_false]

theorem decode_formatS {cmd : Byte} (hg : cmdField cmd 7 6 = 2) (hz : cmdField cmd 5 4 = 0) :
    decode cmd = decodeS (cmdField cmd 3 3) (cmdField cmd 2 0) := by
  simp only [decode, hg, hz, if_true]

theorem decode_formatS_nonzero {cmd : Byte} (hg : cmdField cmd 7 6 = 2) (hz : cmdField cmd 5 4 ≠ 0) :
    decode cmd = .error .stepZeroField := by
  simp only [decode, hg, hz, if_false]

theorem decode_reservedGroup {cmd : Byte} (hg : cmdField cmd 7 6 = 3) : decode cmd = .error .reservedGroup := by
  simp only [decode, hg]

/-! ### R46's list is where decoding fails -/

theorem decodeB_error_iff (w : Width) (fn : Nat) : (∃ e, decodeB w fn = .error e) ↔ 9 ≤ fn := by
  match fn with
  | 0 | 1 | 2 | 3 | 4 | 5 | 6 | 7 | 8 => simp [decodeB]
  | n + 9 => simp [decodeB]

theorem decodeK_error_iff (fn : Nat) : (∃ e, decodeK fn = .error e) ↔ 5 ≤ fn := by
  match fn with
  | 0 | 1 | 2 | 3 | 4 => simp [decodeK]
  | n + 5 => simp [decodeK]

theorem decodeS_error_iff {dir ax : Nat} (hd : dir < 2) (ha : ax < 8) :
    (∃ e, decodeS dir ax = .error e) ↔ ax = 0 := by
  interval_cases dir <;> interval_cases ax <;> simp [decodeS]

theorem illegalCommand_iff_decode_error (cmd : Byte) :
    illegalCommand cmd = true ↔ ∃ e, decode cmd = .error e := by
  rcases cmdField_group_cases cmd with hg | hg | hg | hg
  · rw [decode_formatB hg, decodeB_error_iff]
    simp [illegalCommand, hg]
  · by_cases hz : cmdField cmd 5 3 = 0
    · rw [decode_formatK hg hz, decodeK_error_iff]
      simp [illegalCommand, hg, hz]
    · simp [illegalCommand, decode_formatK_nonzero hg hz, hg, hz]
  · by_cases hz : cmdField cmd 5 4 = 0
    · rw [decode_formatS hg hz, decodeS_error_iff (cmdField_dir_lt cmd) (cmdField_axes_lt cmd)]
      simp [illegalCommand, hg, hz]
    · simp [illegalCommand, decode_formatS_nonzero hg hz, hg, hz]
  · simp [illegalCommand, decode_reservedGroup hg, hg]

/-! ### A word is its format with its own fields -/

theorem toNat_append_eq_add {m n : Nat} (x : BitVec m) (y : BitVec n) :
    (x ++ y).toNat = x.toNat * 2 ^ n + y.toNat := by
  rw [BitVec.toNat_append, ← Nat.shiftLeft_add_eq_or_of_lt y.isLt, Nat.shiftLeft_eq]

theorem toNat_encodeWidth_decodeWidth {n : Nat} (h : n < 4) : (encodeWidth (decodeWidth n)).toNat = n := by
  interval_cases n <;> rfl

theorem formatB_of_fields {cmd : Byte} (hg : cmdField cmd 7 6 = 0) :
    formatB (decodeWidth (cmdField cmd 5 4)) (BitVec.ofNat 4 (cmdField cmd 3 0)) = cmd := by
  apply BitVec.eq_of_toNat_eq
  rw [formatB, toNat_append_eq_add, toNat_append_eq_add, toNat_encodeWidth_decodeWidth (cmdField_wsel_lt cmd)]
  simp only [cmdField, BitVec.toNat_ofNat] at hg ⊢
  omega

theorem formatK_of_fields {cmd : Byte} (hg : cmdField cmd 7 6 = 1) (hz : cmdField cmd 5 3 = 0) :
    formatK (BitVec.ofNat 3 (cmdField cmd 2 0)) = cmd := by
  apply BitVec.eq_of_toNat_eq
  rw [formatK, toNat_append_eq_add, toNat_append_eq_add]
  simp only [cmdField, BitVec.toNat_ofNat] at hg hz ⊢
  omega

theorem formatS_of_fields {cmd : Byte} (hg : cmdField cmd 7 6 = 2) (hz : cmdField cmd 5 4 = 0) :
    formatS (BitVec.ofNat 1 (cmdField cmd 3 3)) (BitVec.ofNat 3 (cmdField cmd 2 0)) = cmd := by
  apply BitVec.eq_of_toNat_eq
  rw [formatS, toNat_append_eq_add, toNat_append_eq_add, toNat_append_eq_add]
  simp only [cmdField, BitVec.toNat_ofNat] at hg hz ⊢
  omega

theorem encode_of_decodeB_ok {w : Width} {fn : Nat} {i : Instr} (h : decodeB w fn = .ok i) :
    encode i = formatB w (BitVec.ofNat 4 fn) := by
  unfold decodeB at h
  split at h <;> cases h <;> rfl

theorem encode_of_decodeK_ok {fn : Nat} {i : Instr} (h : decodeK fn = .ok i) :
    encode i = formatK (BitVec.ofNat 3 fn) := by
  unfold decodeK at h
  split at h <;> cases h <;> rfl

theorem encode_of_decodeS_ok {dir ax : Nat} {i : Instr} (h : decodeS dir ax = .ok i) :
    encode i = formatS (BitVec.ofNat 1 dir) (BitVec.ofNat 3 ax) := by
  unfold decodeS at h
  split at h <;> cases h <;> rfl

/-- Every word that decodes is the encoding of what it decodes to. -/
theorem encode_of_decode_ok {cmd : Byte} {i : Instr} (h : decode cmd = .ok i) : encode i = cmd := by
  rcases cmdField_group_cases cmd with hg | hg | hg | hg
  · rw [decode_formatB hg] at h
    exact (encode_of_decodeB_ok h).trans (formatB_of_fields hg)
  · by_cases hz : cmdField cmd 5 3 = 0
    · rw [decode_formatK hg hz] at h
      exact (encode_of_decodeK_ok h).trans (formatK_of_fields hg hz)
    · rw [decode_formatK_nonzero hg hz] at h
      cases h
  · by_cases hz : cmdField cmd 5 4 = 0
    · rw [decode_formatS hg hz] at h
      exact (encode_of_decodeS_ok h).trans (formatS_of_fields hg hz)
    · rw [decode_formatS_nonzero hg hz] at h
      cases h
  · rw [decode_reservedGroup hg] at h
    cases h

/-- The encoding of every instruction decodes to it. -/
theorem decode_encode (i : Instr) : decode (encode i) = .ok i := by
  cases i with
  | bitAt w | setBitAt w | unsetBitAt w | toggleBitAt w | setBit w | popCount w | isPow2 w | byteAt w | setByteAt w =>
    cases w <;> rfl
  | _ => rfl

/-- R46: the reserved words are the words that encode no instruction. -/
theorem illegalCommand_iff_no_encoding (cmd : Byte) :
    illegalCommand cmd = true ↔ ∀ i : Instr, encode i ≠ cmd := by
  rw [illegalCommand_iff_decode_error]
  constructor
  · rintro ⟨e, he⟩ i rfl
    rw [decode_encode] at he
    cases he
  · intro hno
    cases hd : decode cmd with
    | ok i => exact absurd (encode_of_decode_ok hd) (hno i)
    | error e => exact ⟨e, rfl⟩

namespace Machine

/-- R110, in either profile and whatever the operand fields hold. -/
theorem step_of_illegalCommand {s : State} {r : Request} {rest : List HostStep}
    (hin : s.inputs = .command r :: rest) (hill : illegalCommand r.cmd = true) :
    step s = .next ⟨s.chk, r, some (.illegal r.cmd), rest⟩ := by
  obtain ⟨e, he⟩ := (illegalCommand_iff_decode_error r.cmd).mp hill
  exact step_of_command_error hin he

/-- Settles O4: R46's list is where decoding fails, which is where no instruction is encoded; there the step raises
IllegalCommand. -/
theorem reservedWordAnswersIllegalCommand : Obligations.ReservedWordAnswersIllegalCommand := by
  intro s r rest hin
  exact ⟨illegalCommand_iff_no_encoding r.cmd, step_of_illegalCommand hin, rfl⟩

end Machine
end Sys2Proof
end

