-- ==== Sys2Proof/Proofs/NarrowedOperands.lean ====
section
/-! PROOFS. The operand bits a command ignores (spec/30_encoding.md R42). Narrowing the request keeps the command word and every
operand as the command reads it; two states that agree on these answer alike. -/

namespace Sys2Proof.Machine

/-! ### A narrowed field as the commands read it -/

theorem setWidth_keepLow {m : Nat} (h : m ≤ 64) (v : Word) : (keepLow m v).setWidth m = v.setWidth m := by
  apply BitVec.eq_of_toNat_eq
  have hdvd : 2 ^ m ∣ 2 ^ 64 := Nat.pow_dvd_pow 2 h
  simp only [keepLow, BitVec.toNat_setWidth, BitVec.toNat_ofNat]
  rw [Nat.mod_mod_of_dvd _ hdvd, Nat.mod_mod]

theorem valueOp_of_keepLow {s s' : State} {w : Width} (h : s'.req.a = keepLow w.bits s.req.a) :
    valueOp w s' = valueOp w s := by
  rw [valueOp, h, setWidth_keepLow (Width.bits_le w), valueOp]

theorem byteOp_of_keepLow {s s' : State} (h : s'.req.c = keepLow 8 s.req.c) : byteOp s' = byteOp s := by
  rw [byteOp, h, setWidth_keepLow (by decide), byteOp]

theorem keyA_of_keepLow {s s' : State} (h : s'.req.a = keepLow 32 s.req.a) : keyA s' = keyA s := by
  rw [keyA, h, setWidth_keepLow (by decide), keyA]

theorem keyB_of_keepLow {s s' : State} (h : s'.req.b = keepLow 32 s.req.b) : keyB s' = keyB s := by
  rw [keyB, h, setWidth_keepLow (by decide), keyB]

theorem keyC_of_keepLow {s s' : State} (h : s'.req.c = keepLow 32 s.req.c) : keyC s' = keyC s := by
  rw [keyC, h, setWidth_keepLow (by decide), keyC]

/-! ### Commands on equal operands -/

theorem return1_answersAlike_of_eq {s s' : State} {q q' : Word} (hq : q' = q) :
    AnswersAlike s s' (return1 s q) (return1 s' q') :=
  hq ▸ return1_answersAlike s s' q

/-- A fault record names the command word but no operand field as a whole, so equal checks and an equal word are enough. -/
theorem checked_answersAlike_of_cmd {α : Type} {s s' : State} (hcmd : s'.req.cmd = s.req.cmd) {c c' : Except Violation α}
    (hc : c' = c) {k k' : α → Result} (hk : ∀ v, AnswersAlike s s' (k v) (k' v)) :
    AnswersAlike s s' (checked s c k) (checked s' c' k') := by
  subst hc
  cases c' with
  | error e =>
    exact ⟨.range s.req.cmd e.arg e.lo e.hi e.val, by rw [checked_error, raiseRange_eq],
      by rw [checked_error, raiseRange_eq, hcmd]⟩
  | ok v => simpa only [checked_ok] using hk v

/-- The state whose request port shows only what the instruction reads of the request. -/
def narrowPort (i : Instr) (s : State) : State := { s with req := narrowed i s.req }

theorem narrowPort_cmd (i : Instr) (s : State) : (narrowPort i s).req.cmd = s.req.cmd := by
  cases i <;> rfl

theorem exec_answersAlike_narrowPort (i : Instr) (s : State) :
    AnswersAlike s (narrowPort i s) (exec i s) (exec i (narrowPort i s)) := by
  have hcmd := narrowPort_cmd i s
  cases i with
  | bitAt w | setBitAt w | unsetBitAt w | toggleBitAt w | byteAt w =>
    refine checked_answersAlike_of_cmd hcmd ?position fun p => return1_answersAlike_of_eq ?result
    case position => rfl
    case result => rw [valueOp_of_keepLow rfl]
  | setBit w =>
    refine checked_answersAlike_of_cmd hcmd ?position fun p =>
      checked_answersAlike_of_cmd hcmd ?value fun b => return1_answersAlike_of_eq ?result
    case position | value => rfl
    case result => rw [valueOp_of_keepLow rfl]
  | setByteAt w =>
    refine checked_answersAlike_of_cmd hcmd ?position fun q => return1_answersAlike_of_eq ?result
    case position => rfl
    case result => rw [valueOp_of_keepLow rfl, byteOp_of_keepLow rfl]
  | popCount w | isPow2 w =>
    refine return1_answersAlike_of_eq ?_
    rw [valueOp_of_keepLow rfl]
  | menc =>
    have hx : keyA (narrowPort .menc s) = keyA s := keyA_of_keepLow rfl
    have hy : keyB (narrowPort .menc s) = keyB s := keyB_of_keepLow rfl
    have hz : keyC (narrowPort .menc s) = keyC s := keyC_of_keepLow rfl
    exact checked_answersAlike_of_cmd hcmd (congrArg (coordinate s.chk .a) hx) fun _ =>
      checked_answersAlike_of_cmd hcmd (congrArg (coordinate s.chk .b) hy) fun _ =>
        checked_answersAlike_of_cmd hcmd (congrArg (coordinate s.chk .c) hz) fun _ => return1_answersAlike _ _ _
  | mdec =>
    have hkey : keyA (narrowPort .mdec s) = keyA s := keyA_of_keepLow rfl
    simp only [exec, execMdec, hkey]
    exact return3_answersAlike _ _ _ _ _
  | kadd | ksub | keq =>
    refine return1_answersAlike_of_eq ?_
    rw [keyA_of_keepLow rfl, keyB_of_keepLow rfl]
  | incX | incY | incXY | incZ | incXZ | incYZ | incXYZ | decX | decY | decXY | decZ | decXZ | decYZ | decXYZ =>
    refine return1_answersAlike_of_eq ?_
    rw [keyA_of_keepLow rfl]

/-- Settles O31: every instruction answers a request and its narrowed form alike. -/
theorem ignoredOperandBitsDoNotMatter : Obligations.IgnoredOperandBitsDoNotMatter :=
  exec_answersAlike_narrowPort

end Sys2Proof.Machine
end

