-- ==== Sys2Proof/Proofs/ResultWidths.lean ====
section
/-! PROOFS. The bits a result occupies in its lane (spec/30_encoding.md R43): a bound for each operation that computes a result,
carried through the checks to the response by `ResultsBelow`. -/

namespace Sys2Proof.Machine

/-! ### Bounds of the operations' values -/

theorem toNat_lt_of_getLsbD {n m : Nat} (v : BitVec n) (h : ∀ j, m ≤ j → v.getLsbD j = false) :
    v.toNat < 2 ^ m :=
  Nat.lt_pow_two_of_testBit _ h

theorem toNat_zext64_lt {n m : Nat} {v : BitVec n} (h : v.toNat < 2 ^ m) : (zext64 v).toNat < 2 ^ m := by
  rw [zext64, BitVec.toNat_setWidth]
  exact (Nat.mod_le _ _).trans_lt h

theorem toNat_readBit_lt {n : Nat} (v : BitVec n) (p : Nat) : (readBit v p).toNat < 2 ^ 1 :=
  toNat_lt_of_getLsbD _ fun j hj => by simp [getLsbD_readBit, show j ≠ 0 by omega]

theorem toNat_readLane_lt {n : Nat} (v : BitVec n) (m : Nat) : (readLane v m).toNat < 2 ^ 8 :=
  toNat_lt_of_getLsbD _ fun j hj => by simp [getLsbD_readLane, show ¬ j < 8 by omega]

theorem toNat_decodeAxis_lt (key : Key) (a : Axis) : (decodeAxis key a).toNat < 2 ^ 10 :=
  toNat_lt_of_getLsbD _ fun j hj => by simp [getLsbD_decodeAxis, show ¬ j < 10 by omega]

theorem toNat_popCount_lt (w : Width) (v : BitVec w.bits) : (BitVec.ofNat 64 (popCount v)).toNat < 2 ^ 7 := by
  have hcount : popCount v ≤ w.bits := countOnes_le _ v
  have hbits : w.bits ≤ 64 := Width.bits_le w
  rw [BitVec.toNat_ofNat]
  omega

theorem toNat_boolean_lt (c : Prop) [Decidable c] : (if c then 1 else 0 : Word).toNat < 2 ^ 1 := by
  split <;> decide

/-! ### Bounds carried to the response -/

/-- An OK response of this outcome has its first result below `2 ^ n` and the two side results below `2 ^ m`. -/
def ResultsBelow (n m : Nat) (p : Result) : Prop :=
  ∀ (t : State) (q0 q1 q2 : Word), p = .next t → t.rsp = some (.ok q0 q1 q2) →
    q0.toNat < 2 ^ n ∧ q1.toNat < 2 ^ m ∧ q2.toNat < 2 ^ m

theorem return3_resultsBelow {n m : Nat} (s : State) {x y z : Word} (hx : x.toNat < 2 ^ n) (hy : y.toNat < 2 ^ m)
    (hz : z.toNat < 2 ^ m) : ResultsBelow n m (return3 s x y z) := by
  rintro t q0 q1 q2 ⟨⟩ ⟨⟩
  exact ⟨hx, hy, hz⟩

theorem return1_resultsBelow {n m : Nat} (s : State) {q : Word} (hq : q.toNat < 2 ^ n) :
    ResultsBelow n m (return1 s q) :=
  return3_resultsBelow s hq (Nat.two_pow_pos m) (Nat.two_pow_pos m)

theorem return1_zext64_resultsBelow {n m : Nat} (s : State) (v : BitVec n) : ResultsBelow n m (return1 s (zext64 v)) :=
  return1_resultsBelow s (toNat_zext64_lt v.isLt)

/-- A fault response has no results, so a check adds nothing to show. -/
theorem checked_resultsBelow {α : Type} {n m : Nat} (s : State) (c : Except Violation α) {k : α → Result}
    (hk : ∀ v, ResultsBelow n m (k v)) : ResultsBelow n m (checked s c k) := by
  cases c with
  | error e => rintro t q0 q1 q2 ⟨⟩ ⟨⟩
  | ok v => simpa only [checked_ok] using hk v

theorem exec_resultsBelow (i : Instr) (s : State) : ResultsBelow (resultBits i) (sideBits i) (exec i s) := by
  cases i with
  | bitAt w =>
    exact checked_resultsBelow s _ fun p => return1_resultsBelow s (toNat_zext64_lt (toNat_readBit_lt _ p))
  | setBitAt w | unsetBitAt w | toggleBitAt w | setByteAt w =>
    exact checked_resultsBelow s _ fun _ => return1_zext64_resultsBelow s _
  | setBit w =>
    exact checked_resultsBelow s _ fun _ => checked_resultsBelow s _ fun _ => return1_zext64_resultsBelow s _
  | popCount w => exact return1_resultsBelow s (toNat_popCount_lt w _)
  | isPow2 w | keq => exact return1_resultsBelow s (toNat_boolean_lt _)
  | byteAt w =>
    exact checked_resultsBelow s _ fun _ => return1_resultsBelow s (toNat_zext64_lt (toNat_readLane_lt _ _))
  | menc =>
    exact checked_resultsBelow s _ fun _ => checked_resultsBelow s _ fun _ => checked_resultsBelow s _ fun _ =>
      return1_zext64_resultsBelow s _
  | mdec =>
    exact return3_resultsBelow s (toNat_zext64_lt (toNat_decodeAxis_lt _ .x))
      (toNat_zext64_lt (toNat_decodeAxis_lt _ .y)) (toNat_zext64_lt (toNat_decodeAxis_lt _ .z))
  | kadd | ksub | incX | incY | incXY | incZ | incXZ | incYZ | incXYZ
  | decX | decY | decXY | decZ | decXZ | decYZ | decXYZ => exact return1_zext64_resultsBelow s _

/-- Settles O32: the bound of the instruction's own outcome, at the response it carries. -/
theorem resultsAreZeroExtendedInTheirLanes : Obligations.ResultsAreZeroExtendedInTheirLanes := by
  intro i s q0 q1 q2 h
  exact exec_resultsBelow i s _ q0 q1 q2 h rfl

end Sys2Proof.Machine
end

