-- ==== Sys2Proof/Proofs/FormatB.lean ====
section
/-! PROOFS. What the format-B commands share: the command word of a function at a width (spec/30_encoding.md R37, R38), the value
operand (spec/40_bit_primitives.md R51), and the position and lane checks (R52, R53) as a command goes through them. -/

namespace Sys2Proof.Machine

/-! ### The command word -/

theorem toNat_encodeWidth (w : Width) : (encodeWidth w).toNat = wsel w := by
  cases w <;> rfl

theorem wordB_eq_formatB (w : Width) (fn : BitVec 4) : wordB w fn.toNat = formatB w fn := by
  have hw : wsel w < 4 := toNat_encodeWidth w ▸ (encodeWidth w).isLt
  apply BitVec.eq_of_toNat_eq
  rw [formatB, toNat_append_eq_add, toNat_append_eq_add, toNat_encodeWidth, wordB, BitVec.toNat_ofNat,
    BitVec.toNat_ofNat]
  omega

/-- An instruction whose encoding is function `fn` of format B is what that function's word decodes to. -/
theorem decode_wordB {i : Instr} {w : Width} {fn : BitVec 4} (h : encode i = formatB w fn) :
    decode (wordB w fn.toNat) = .ok i := by
  rw [wordB_eq_formatB, ← h, decode_encode]

/-! ### The value operand -/

theorem toNat_valueOp (w : Width) (s : State) : (valueOp w s).toNat = s.req.a.toNat % 2 ^ w.bits :=
  BitVec.toNat_setWidth ..

theorem getLsbD_valueOp (w : Width) (s : State) (j : Nat) :
    (valueOp w s).getLsbD j = (decide (j < w.bits) && s.req.a.getLsbD j) :=
  BitVec.getLsbD_setWidth ..

theorem getLsbD_valueOp_of_lt {w : Width} {j : Nat} (h : j < w.bits) (s : State) :
    (valueOp w s).getLsbD j = s.req.a.getLsbD j := by
  rw [getLsbD_valueOp, decide_eq_true h, Bool.true_and]

/-- Two values cut to W bits agree at a position if they agree there whenever it is below W. -/
theorem below_width_and_congr {w : Width} {j : Nat} {x y : Bool} (h : j < w.bits → x = y) :
    (decide (j < w.bits) && x) = (decide (j < w.bits) && y) := by
  by_cases hj : j < w.bits
  · rw [h hj]
  · simp only [hj, decide_false, Bool.false_and]

/-- A W-bit result fits in a lane, so extending it changes no bit. -/
theorem getLsbD_zext64_width (w : Width) (v : BitVec w.bits) (j : Nat) : (zext64 v).getLsbD j = v.getLsbD j := by
  have hw : w.bits ≤ 64 := Width.bits_le w
  rw [getLsbD_zext64]
  by_cases hj : j < 64
  · simp only [hj, decide_true, Bool.true_and]
  · rw [BitVec.getLsbD_of_ge v j (by omega), Bool.and_false]

theorem zext64_eq_ofNat {n : Nat} (v : BitVec n) : zext64 v = BitVec.ofNat 64 v.toNat :=
  (BitVec.ofNat_toNat 64 v).symm

/-! ### The position and lane checks -/

theorem checked_bitPos_ok {w : Width} {s : State} (h : s.req.b.toNat < w.bits ∨ s.chk = false) (k : Nat → Result) :
    checked s (bitPos s.chk w s.req.b) k = k (s.req.b.toNat % w.bits) := by
  rw [bitPos_ok _ _ _ h, checked_ok]

theorem checked_bitPos_error {w : Width} {s : State} (hc : s.chk = true) (h : w.bits ≤ s.req.b.toNat)
    (k : Nat → Result) :
    checked s (bitPos s.chk w s.req.b) k =
      .next (answer s (.range s.req.cmd .b 0 (BitVec.ofNat 64 (w.bits - 1)) s.req.b)) := by
  rw [hc, bitPos_error _ _ h, checked_error, raiseRange_eq]

theorem checked_lanePos_ok {w : Width} {s : State} (h : s.req.b.toNat < w.bits / 8 ∨ s.chk = false)
    (k : Nat → Result) :
    checked s (lanePos s.chk w s.req.b) k = k (s.req.b.toNat % (w.bits / 8)) := by
  rw [lanePos_ok _ _ _ h, checked_ok]

theorem checked_lanePos_error {w : Width} {s : State} (hc : s.chk = true) (h : w.bits / 8 ≤ s.req.b.toNat)
    (k : Nat → Result) :
    checked s (lanePos s.chk w s.req.b) k =
      .next (answer s (.range s.req.cmd .b 0 (BitVec.ofNat 64 (w.bits / 8 - 1)) s.req.b)) := by
  rw [hc, lanePos_error _ _ h, checked_error, raiseRange_eq]

theorem checked_bitValue_ok {s : State} (h : s.req.c.toNat ≤ 1) (k : BitVec 1 → Result) :
    checked s (bitValue s.req.c) k = k (s.req.c.setWidth 1) := by
  rw [bitValue_ok _ h, checked_ok]

theorem checked_bitValue_error {s : State} (h : 1 < s.req.c.toNat) (k : BitVec 1 → Result) :
    checked s (bitValue s.req.c) k = .next (answer s (.range s.req.cmd .c 0 1 s.req.c)) := by
  rw [bitValue_error _ h, checked_error, raiseRange_eq]

theorem laneShift_eq (w : Width) (q : Nat) : laneShift w q = 8 * (w.bits / 8 - 1 - q) := by
  rw [laneShift, Width.lanes_eq]

end Sys2Proof.Machine
end

