-- ==== Sys2Proof/Proofs/BitPrimitives.lean ====
section
/-! PROOFS. The bit primitives, format B with `FN` 0 to 7 (spec/40_bit_primitives.md R54 to R61). Each command is its check, then
one operation on the value operand, then one result lane. -/

namespace Sys2Proof.Machine

/-! ### The meaning of each command: check, operation, result -/

theorem exec_bitAt (w : Width) (s : State) : exec (.bitAt w) s =
    checked s (bitPos s.chk w s.req.b) fun p => return1 s (zext64 (readBit (valueOp w s) p)) := rfl

theorem exec_setBitAt (w : Width) (s : State) : exec (.setBitAt w) s =
    checked s (bitPos s.chk w s.req.b) fun p => return1 s (zext64 (forceOne (valueOp w s) p)) := rfl

theorem exec_unsetBitAt (w : Width) (s : State) : exec (.unsetBitAt w) s =
    checked s (bitPos s.chk w s.req.b) fun p => return1 s (zext64 (forceZero (valueOp w s) p)) := rfl

theorem exec_toggleBitAt (w : Width) (s : State) : exec (.toggleBitAt w) s =
    checked s (bitPos s.chk w s.req.b) fun p => return1 s (zext64 (flipBit (valueOp w s) p)) := rfl

theorem exec_setBit (w : Width) (s : State) : exec (.setBit w) s =
    checked s (bitPos s.chk w s.req.b) fun p => checked s (bitValue s.req.c) fun b =>
      return1 s (zext64 (assignBit (valueOp w s) p b)) := rfl

theorem exec_popCount (w : Width) (s : State) :
    exec (.popCount w) s = .next (answer s (.ok (BitVec.ofNat 64 (popCount (valueOp w s))) 0 0)) := rfl

theorem exec_isPow2 (w : Width) (s : State) :
    exec (.isPow2 w) s = .next (answer s (.ok (if isPow2 (valueOp w s) then 1 else 0) 0 0)) := rfl

theorem exec_byteAt (w : Width) (s : State) : exec (.byteAt w) s =
    checked s (lanePos s.chk w s.req.b) fun q => return1 s (zext64 (readLane (valueOp w s) (laneShift w q))) := rfl

/-! ### Commands that address one bit -/

/-- A command that addresses one bit: in range it completes with the bits of its operation's W-bit result, and a checked
position out of range faults. -/
theorem positionCommand_spec {w : Width} {s : State} (op : Nat → BitVec w.bits) {bit : Nat → Bool}
    (hbit : ∀ j, (op (s.req.b.toNat % w.bits)).getLsbD j = bit j) :
    ((s.req.b.toNat < w.bits ∨ s.chk = false) →
      ∃ q : Word, checked s (bitPos s.chk w s.req.b) (fun p => return1 s (zext64 (op p))) =
        .next (answer s (.ok q 0 0)) ∧ ∀ j, q.getLsbD j = bit j) ∧
    (s.chk = true → w.bits ≤ s.req.b.toNat →
      checked s (bitPos s.chk w s.req.b) (fun p => return1 s (zext64 (op p))) =
        .next (answer s (.range s.req.cmd .b 0 (BitVec.ofNat 64 (w.bits - 1)) s.req.b))) := by
  refine ⟨fun h => ⟨zext64 (op (s.req.b.toNat % w.bits)), ?_, fun j => ?_⟩, fun hc h => checked_bitPos_error hc h _⟩
  · rw [checked_bitPos_ok h, return1_answers]
  · rw [getLsbD_zext64_width, hbit]

/-- Settles O10: the position is below W, so the bit of the value operand is the bit of `REQ.A`. -/
theorem bitAtReadsOneBit : Obligations.BitAtReadsOneBit := by
  intro w s
  rw [exec_bitAt]
  refine ⟨decode_wordB (fn := 0) rfl, positionCommand_spec _ fun j => ?_⟩
  rw [getLsbD_readBit, getLsbD_valueOp_of_lt (Nat.mod_lt _ (Width.bits_pos w))]

/-- Settles O11: below W the operation reads the value operand as `REQ.A`, and at W and above both sides are 0. -/
theorem setBitAtForcesOneBitToOne : Obligations.SetBitAtForcesOneBitToOne := by
  intro w s
  rw [exec_setBitAt]
  refine ⟨decode_wordB (fn := 1) rfl, positionCommand_spec _ fun j => ?_⟩
  rw [getLsbD_forceOne]
  exact below_width_and_congr fun hj => by rw [getLsbD_valueOp_of_lt hj]

/-- Settles O12: as O11, with the addressed bit cleared. -/
theorem unsetBitAtForcesOneBitToZero : Obligations.UnsetBitAtForcesOneBitToZero := by
  intro w s
  rw [exec_unsetBitAt]
  refine ⟨decode_wordB (fn := 2) rfl, positionCommand_spec _ fun j => ?_⟩
  rw [getLsbD_forceZero, Bool.and_assoc, Bool.and_assoc]
  exact below_width_and_congr fun hj => by rw [getLsbD_valueOp_of_lt hj]

/-- Settles O13: as O11, with the addressed bit inverted. -/
theorem toggleBitAtFlipsOneBit : Obligations.ToggleBitAtFlipsOneBit := by
  intro w s
  rw [exec_toggleBitAt]
  refine ⟨decode_wordB (fn := 3) rfl, positionCommand_spec _ fun j => ?_⟩
  rw [getLsbD_flipBit]
  exact below_width_and_congr fun hj => by rw [getLsbD_valueOp_of_lt hj]

theorem getLsbD_setWidth_one (c : Word) : (c.setWidth 1).getLsbD 0 = c.getLsbD 0 := by
  rw [BitVec.getLsbD_setWidth, decide_eq_true Nat.one_pos, Bool.true_and]

/-- Settles O14: once the value has passed its check, SETBIT is a position command on that value; with the position in range
and a bad value, the second check ends it. -/
theorem setBitAssignsOneBit : Obligations.SetBitAssignsOneBit := by
  intro w s
  rw [exec_setBit]
  refine ⟨decode_wordB (fn := 4) rfl, fun hb hc => ?ok, fun hchk hb => checked_bitPos_error hchk hb _,
    fun hb hc => ?badValue⟩
  case ok =>
    simp only [checked_bitValue_ok hc]
    refine (positionCommand_spec _ fun j => ?_).1 hb
    rw [getLsbD_assignBit, getLsbD_setWidth_one]
    exact below_width_and_congr fun hj => by rw [getLsbD_valueOp_of_lt hj]
  case badValue =>
    rw [checked_bitPos_ok hb, checked_bitValue_error hc]
    rfl

/-! ### Commands that test or count the whole value -/

/-- The count over the positions of a W-bit value, as R59 sums it, of the bits of `REQ.A` itself. -/
theorem popCount_valueOp (w : Width) (s : State) :
    popCount (valueOp w s) = (Finset.univ.filter (fun j : Fin w.bits => s.req.a.getLsbD j = true)).card := by
  calc popCount (valueOp w s)
      = ((Finset.range w.bits).filter (fun j => (valueOp w s).getLsbD j = true)).card := countOnes_eq_card _ _
    _ = ((Finset.range w.bits).filter (fun j => s.req.a.getLsbD j = true)).card := by
        refine congrArg Finset.card (Finset.filter_congr fun j hj => ?_)
        rw [getLsbD_valueOp_of_lt (Finset.mem_range.mp hj)]
    _ = (Finset.univ.filter (fun j : Fin w.bits => s.req.a.getLsbD j = true)).card := by
        rw [Finset.card_filter, Finset.card_filter]
        exact (Fin.sum_univ_eq_sum_range (fun j => if s.req.a.getLsbD j = true then 1 else 0) w.bits).symm

/-- Settles O15: the count of the value operand is the count of the low W bits of `REQ.A`. -/
theorem popCountCountsTheOneBits : Obligations.PopCountCountsTheOneBits := by
  intro w s
  rw [exec_popCount, popCount_valueOp]
  exact ⟨decode_wordB (fn := 5) rfl, rfl⟩

theorem isPow2_iff {n : Nat} (v : BitVec n) : isPow2 v = true ↔ v ≠ 0 ∧ v &&& (v - 1#n) = 0 := by
  rw [isPow2, Bool.and_eq_true, bne_iff_ne, beq_iff_eq]
  rfl

/-- Subtracting 1 from a value other than 0 does not wrap. -/
theorem toNat_sub_one_of_ne_zero {n : Nat} {v : BitVec n} (hv : v ≠ 0) : (v - 1#n).toNat = v.toNat - 1 := by
  have hn : 0 < n := by
    rcases Nat.eq_zero_or_pos n with rfl | hn
    · exact absurd BitVec.of_length_zero hv
    · exact hn
  have hpos : 0 < v.toNat := Nat.pos_of_ne_zero fun h0 => hv (BitVec.eq_of_toNat_eq h0)
  have hle : 1#n ≤ v := by rwa [BitVec.le_def, BitVec.toNat_one hn]
  rw [BitVec.toNat_sub_of_le hle, BitVec.toNat_one hn]

/-- R60's formula says of a bit vector what it says of its value as a number. -/
theorem pow2_formula_iff {n : Nat} (v : BitVec n) : (v ≠ 0 ∧ v &&& (v - 1#n) = 0) ↔ ∃ k, v.toNat = 2 ^ k := by
  have hne : v ≠ 0 ↔ v.toNat ≠ 0 := not_congr BitVec.toNat_inj.symm
  have hand : v ≠ 0 → (v &&& (v - 1#n) = 0 ↔ v.toNat &&& (v.toNat - 1) = 0) := by
    intro hv
    rw [← BitVec.toNat_inj, BitVec.toNat_and, toNat_sub_one_of_ne_zero hv]
    rfl
  calc (v ≠ 0 ∧ v &&& (v - 1#n) = 0)
      ↔ (v.toNat ≠ 0 ∧ v.toNat &&& (v.toNat - 1) = 0) := by rw [and_congr_right hand, hne]
    _ ↔ ∃ k, v.toNat = 2 ^ k := Nat.ne_zero_and_sub_one_eq_zero_iff_isPowerOfTwo

/-- Settles O16: v is the value operand, so the test is R60's formula on v. -/
theorem isPow2TestsForAPowerOfTwo : Obligations.IsPow2TestsForAPowerOfTwo := by
  intro w s
  refine ⟨decode_wordB (fn := 6) rfl, fun v hv => ⟨?_, pow2_formula_iff v⟩⟩
  obtain rfl : v = valueOp w s := BitVec.eq_of_toNat_eq (hv.trans (toNat_valueOp w s).symm)
  simp only [exec_isPow2, isPow2_iff]
  rfl

/-! ### BYTEAT -/

theorem toNat_readLane {n : Nat} (v : BitVec n) (m : Nat) : (readLane v m).toNat = v.toNat / 2 ^ m % 256 := by
  apply Nat.eq_of_testBit_eq
  intro j
  rw [BitVec.testBit_toNat, getLsbD_readLane, show 256 = 2 ^ 8 from rfl, Nat.testBit_mod_two_pow,
    Nat.testBit_div_two_pow, BitVec.testBit_toNat, Nat.add_comm]

/-- Settles O17: reading a lane is a shift and a cut to 8 bits of the value operand. -/
theorem byteAtReadsOneLane : Obligations.ByteAtReadsOneLane := by
  intro w s
  rw [exec_byteAt]
  refine ⟨decode_wordB (fn := 7) rfl, fun h => ?_, fun hc h => checked_lanePos_error hc h _⟩
  rw [checked_lanePos_ok h, zext64_eq_ofNat, toNat_readLane, toNat_valueOp, laneShift_eq]
  rfl

end Sys2Proof.Machine
end

