-- ==== Sys2Proof/Proofs/KeyOperands.lean ====
section
/-! PROOFS. What the format-K and format-S commands share: the key operands (spec/30_encoding.md R42) and the codec read one
axis slot at a time (spec/41_morton_codec.md R71). -/

namespace Sys2Proof.Machine

/-! ### The key operands as parts of the request -/

theorem toNat_keyA (s : State) : (keyA s).toNat = s.req.a.toNat % 2 ^ 32 := BitVec.toNat_setWidth ..

theorem toNat_keyB (s : State) : (keyB s).toNat = s.req.b.toNat % 2 ^ 32 := BitVec.toNat_setWidth ..

theorem toNat_keyC (s : State) : (keyC s).toNat = s.req.c.toNat % 2 ^ 32 := BitVec.toNat_setWidth ..

theorem getLsbD_keyA_of_lt {j : Nat} (h : j < 32) (s : State) : (keyA s).getLsbD j = s.req.a.getLsbD j := by
  rw [keyA, BitVec.getLsbD_setWidth, decide_eq_true h, Bool.true_and]

/-- A key fits in a lane, so extending it changes no bit. -/
theorem getLsbD_zext64_key (v : Key) (j : Nat) : (zext64 v).getLsbD j = v.getLsbD j :=
  getLsbD_zext64_width .w32 v j

/-! ### Key bits by axis slot (R71) -/

theorem slot_lt (a : Axis) : slot a < 3 := by cases a <;> decide

/-- R74: bit i of each axis's coordinate stands in the axis's slot. -/
theorem getLsbD_encodeKey_slot (c : Axis → Key) (a : Axis) {i : Nat} (hi : i < 10) :
    (encodeKey (c .x) (c .y) (c .z)).getLsbD (3 * i + slot a) = (c a).getLsbD i := by
  have hslot : slot a < 3 := slot_lt a
  rw [getLsbD_encodeKey, decide_eq_true (by omega), Bool.true_and, show (3 * i + slot a) / 3 = i by omega,
    show (3 * i + slot a) % 3 = slot a by omega]
  cases a <;> rfl

/-- R77: bits 31:30 of an encoded key are zero. -/
theorem getLsbD_encodeKey_of_ge (x y z : Key) {j : Nat} (hj : 30 ≤ j) : (encodeKey x y z).getLsbD j = false := by
  rw [getLsbD_encodeKey, decide_eq_false (by omega), Bool.false_and]

/-- R75: bit i of a decoded coordinate is the key bit in the axis's slot. -/
theorem getLsbD_decodeAxis_slot (key : Key) (a : Axis) (i : Nat) :
    (decodeAxis key a).getLsbD i = (decide (i < 10) && key.getLsbD (3 * i + slot a)) := by
  cases a <;> exact getLsbD_decodeAxis key _ i

end Sys2Proof.Machine
end

