-- ==== Sys2Proof/Proofs/MortonCodec.lean ====
section
/-! PROOFS. The Morton encoder and decoder commands (spec/41_morton_codec.md R74, R75). MENC is three coordinate checks in the
order x, y, z, then one key; MDEC is three coordinates of one key. -/

namespace Sys2Proof.Machine

/-! ### MENC -/

theorem checked_coordinate_ok {s : State} {arg : Arg} {n : Key} (h : n.toNat ≤ 1023 ∨ s.chk = false)
    (k : Key → Result) : checked s (coordinate s.chk arg n) k = k n := by
  rw [coordinate_ok _ _ _ h, checked_ok]

theorem checked_coordinate_error {s : State} {arg : Arg} {n : Key} (hc : s.chk = true) (h : 1023 < n.toNat)
    (k : Key → Result) :
    checked s (coordinate s.chk arg n) k =
      .next (answer s (.range s.req.cmd arg 0 1023 (BitVec.ofNat 64 n.toNat))) := by
  rw [hc, coordinate_error _ _ h, checked_error, raiseRange_eq, zext64_eq_ofNat]

/-- The operand MENC takes as the coordinate of an axis. -/
def mencOperand (s : State) : Axis → Key
  | .x => keyA s
  | .y => keyB s
  | .z => keyC s

theorem exec_menc (s : State) : exec .menc s =
    checked s (coordinate s.chk .a (keyA s)) fun x => checked s (coordinate s.chk .b (keyB s)) fun y =>
      checked s (coordinate s.chk .c (keyC s)) fun z => return1 s (zext64 (encodeKey x y z)) := rfl

/-- With every coordinate in range, or in the unchecked profile, all three checks let MENC go on. -/
theorem exec_menc_ok {s : State}
    (h : ((keyA s).toNat ≤ 1023 ∧ (keyB s).toNat ≤ 1023 ∧ (keyC s).toNat ≤ 1023) ∨ s.chk = false) :
    exec .menc s = .next (answer s (.ok (zext64 (encodeKey (keyA s) (keyB s) (keyC s))) 0 0)) := by
  have hx : (keyA s).toNat ≤ 1023 ∨ s.chk = false := h.imp_left fun ⟨hx, _, _⟩ => hx
  have hy : (keyB s).toNat ≤ 1023 ∨ s.chk = false := h.imp_left fun ⟨_, hy, _⟩ => hy
  have hz : (keyC s).toNat ≤ 1023 ∨ s.chk = false := h.imp_left fun ⟨_, _, hz⟩ => hz
  rw [exec_menc, checked_coordinate_ok hx, checked_coordinate_ok hy, checked_coordinate_ok hz, return1_answers]

/-- Settles O19: the numbers of the statement are the key operands, so its OK clause reads the encoded key slot by slot, and
each fault clause ends at the first check that fails. -/
theorem mencInterleavesThreeCoordinates : Obligations.MencInterleavesThreeCoordinates := by
  refine ⟨decode_encode .menc, fun s x y z hx hy hz => ?_⟩
  obtain rfl : (keyA s).toNat = x := (toNat_keyA s).trans hx.symm
  obtain rfl : (keyB s).toNat = y := (toNat_keyB s).trans hy.symm
  obtain rfl : (keyC s).toNat = z := (toNat_keyC s).trans hz.symm
  refine ⟨fun h => ⟨_, exec_menc_ok h, fun i hi => ?bits, fun j hj => ?unused⟩, ?faultX, ?faultY, ?faultZ⟩
  case bits =>
    simp only [getLsbD_zext64_key, BitVec.testBit_toNat]
    have hbit (a : Axis) := getLsbD_encodeKey_slot (mencOperand s) a hi
    exact ⟨hbit .x, hbit .y, hbit .z⟩
  case unused => rw [getLsbD_zext64_key, getLsbD_encodeKey_of_ge _ _ _ hj]
  case faultX =>
    intro hc hx
    rw [exec_menc]
    exact checked_coordinate_error hc hx _
  case faultY =>
    intro hc hx hy
    rw [exec_menc, checked_coordinate_ok (.inl hx)]
    exact checked_coordinate_error hc hy _
  case faultZ =>
    intro hc hx hy hz
    rw [exec_menc, checked_coordinate_ok (.inl hx), checked_coordinate_ok (.inl hy)]
    exact checked_coordinate_error hc hz _

/-! ### MDEC -/

theorem exec_mdec (s : State) : exec .mdec s = .next (answer s (.ok (zext64 (decodeAxis (keyA s) .x))
    (zext64 (decodeAxis (keyA s) .y)) (zext64 (decodeAxis (keyA s) .z)))) := rfl

/-- The slots of a coordinate end below bit 30, so the result lane reads `REQ.A` itself. -/
theorem getLsbD_zext64_decodeAxis_keyA (s : State) (a : Axis) (i : Nat) :
    (zext64 (decodeAxis (keyA s) a)).getLsbD i = (decide (i < 10) && s.req.a.getLsbD (3 * i + slot a)) := by
  have hslot : slot a < 3 := slot_lt a
  rw [getLsbD_zext64_key, getLsbD_decodeAxis_slot]
  by_cases hi : i < 10
  · rw [getLsbD_keyA_of_lt (by omega)]
  · simp only [hi, decide_false, Bool.false_and]

/-- Settles O20: each lane is one axis of the key operand. -/
theorem mdecGathersThreeCoordinates : Obligations.MdecGathersThreeCoordinates :=
  ⟨decode_encode .mdec, fun s => ⟨_, _, _, exec_mdec s, fun i =>
    ⟨getLsbD_zext64_decodeAxis_keyA s .x i, getLsbD_zext64_decodeAxis_keyA s .y i,
      getLsbD_zext64_decodeAxis_keyA s .z i⟩⟩⟩

end Sys2Proof.Machine
end

