-- ==== Sys2Proof/Proofs/AxisStep.lean ====
section
/-! PROOFS. The axis step commands (spec/42_morton_step.md R84 to R97). Each is the engine of its direction along the list of its
axes (R82), and the engine on an axis is the one-axis formula the rules write with literals. -/

namespace Sys2Proof.Machine

/-! ### The engine as the formula of the rules -/

/-- `~_32 MX`, `~_32 MY`, `~_32 MZ` as the literals of R84, R85 and R87. -/
def axisComplement : Axis → Key
  | .x => 0xF6DB6DB6
  | .y => 0xEDB6DB6D
  | .z => 0xDB6DB6DB

theorem axisComplement_eq_not (a : Axis) : axisComplement a = ~~~axisMask a := by
  cases a <;> rfl

/-- The one-axis formula of a direction (R84, R91) with the literals of an axis. -/
def axisFormula (d : Dir) (key : Key) (a : Axis) : Key :=
  match d with
  | .inc => incFormula key (axisMask a) (axisComplement a) (axisStep a)
  | .dec => decFormula key (axisMask a) (axisComplement a) (axisStep a)

/-- R80: the increment engine is the formula on a mask and its complement. -/
theorem incAxis_eq_incFormula (key m st : Key) : incAxis key m st = incFormula key m (~~~m) st := rfl

/-- R81: so is the decrement engine. -/
theorem decAxis_eq_decFormula (key m st : Key) : decAxis key m st = decFormula key m (~~~m) st := rfl

theorem engine_eq_axisFormula (d : Dir) : engine d = axisFormula d := by
  funext key a
  cases d with
  | inc => rw [engine, axisFormula, axisComplement_eq_not, incAxis_eq_incFormula]
  | dec => rw [engine, axisFormula, axisComplement_eq_not, decAxis_eq_decFormula]

/-! ### What a format-S command answers -/

/-- R82 and R83: in every state a format-S command completes with its engine applied to the key operand once per selected axis,
in the order of its axis list, and changes nothing but the response. -/
theorem exec_of_stepForm {i : Instr} {d : Dir} {axes : List Axis} (h : stepForm i = some (d, axes)) (s : State) :
    exec i s = .next (answer s (.ok (zext64 (axes.foldl (engine d) (keyA s))) 0 0)) := by
  cases i with
  | incX | incY | incXY | incZ | incXZ | incYZ | incXYZ | decX | decY | decXY | decZ | decXZ | decYZ | decXYZ =>
    cases h
    rfl
  | _ => cases h

/-- The same through the formula of the rules, for the key operand given as a number. -/
theorem exec_eq_axisFormula {i : Instr} {d : Dir} {axes : List Axis} (h : stepForm i = some (d, axes)) {s : State}
    {key : Key} (hkey : key.toNat = s.req.a.toNat % 2 ^ 32) :
    exec i s = .next (answer s (.ok (zext64 (axes.foldl (axisFormula d) key)) 0 0)) := by
  obtain rfl : key = keyA s := BitVec.eq_of_toNat_eq (hkey.trans (toNat_keyA s).symm)
  rw [exec_of_stepForm h, engine_eq_axisFormula]

/-- Settles O21: each word is the encoding of its command, and each command folds the increment formula along its axes. -/
theorem incrementCommandsFollowTheirFormulas : Obligations.IncrementCommandsFollowTheirFormulas := by
  intro s key hkey
  have hexec {i : Instr} {axes : List Axis} (h : stepForm i = some (.inc, axes)) := exec_eq_axisFormula h hkey
  exact ⟨decode_encode .incX, hexec (axes := [.x]) rfl,
    decode_encode .incY, hexec (axes := [.y]) rfl,
    decode_encode .incXY, hexec (axes := [.x, .y]) rfl,
    decode_encode .incZ, hexec (axes := [.z]) rfl,
    decode_encode .incXZ, hexec (axes := [.x, .z]) rfl,
    decode_encode .incYZ, hexec (axes := [.y, .z]) rfl,
    decode_encode .incXYZ, hexec (axes := [.x, .y, .z]) rfl⟩

/-- Settles O22: as for the increments, with the masked decrement formula. -/
theorem decrementCommandsFollowTheirFormulas : Obligations.DecrementCommandsFollowTheirFormulas := by
  intro s key hkey
  have hexec {i : Instr} {axes : List Axis} (h : stepForm i = some (.dec, axes)) := exec_eq_axisFormula h hkey
  exact ⟨decode_encode .decX, hexec (axes := [.x]) rfl,
    decode_encode .decY, hexec (axes := [.y]) rfl,
    decode_encode .decXY, hexec (axes := [.x, .y]) rfl,
    decode_encode .decZ, hexec (axes := [.z]) rfl,
    decode_encode .decXZ, hexec (axes := [.x, .z]) rfl,
    decode_encode .decYZ, hexec (axes := [.y, .z]) rfl,
    decode_encode .decXYZ, hexec (axes := [.x, .y, .z]) rfl⟩

end Sys2Proof.Machine
end

