-- ==== Sys2Proof/Proofs/KeyEquality.lean ====
section
/-! PROOFS. Key equality (spec/43_morton_keyarith.md R102): the two key operands are compared as raw 32-bit patterns. -/

namespace Sys2Proof.Machine

/-- The key operands are equal exactly when the ports agree on their low 32 bits, bits 31:30 included. -/
theorem keyA_eq_keyB_iff (s : State) : keyA s = keyB s ↔ s.req.a.toNat % 2 ^ 32 = s.req.b.toNat % 2 ^ 32 := by
  rw [← BitVec.toNat_inj, toNat_keyA, toNat_keyB]

theorem exec_keq (s : State) : exec .keq s = .next (answer s (.ok (if keyA s = keyB s then 1 else 0) 0 0)) := rfl

/-- Settles O28: KEQ compares the two key operands, in every state and either profile. -/
theorem keqComparesRawKeys : Obligations.KeqComparesRawKeys := by
  refine ⟨decode_encode .keq, fun s => ?_⟩
  rw [exec_keq, if_congr (keyA_eq_keyB_iff s) rfl rfl, answer]

end Sys2Proof.Machine
end

