-- ==== Sys2Proof/Proofs/FaultCauses.lean ====
section
/-! PROOFS. The causes of RangeViolation (spec/60_exceptions.md R112 to R114). Each operand check fails exactly with the record of
its row of the cause table; `AnswersFirst` then carries the rows through a command's checks, in their order, to its response. -/

namespace Sys2Proof.Machine

/-! ### Each operand check against its row of the table -/

/-- The violation a check reports, as a list, so that a command's checks can be joined as the table joins its rows. -/
def violationsOf {α : Type} : Except Violation α → List Violation
  | .error e => [e]
  | .ok _ => []

/-- A check that passes when its row is silent, and fails with the row's record when it is not, reports exactly the row. -/
theorem violationsOf_eq_offenceIf {α : Type} {c : Except Violation α} {active : Bool} {arg : Arg} {hi : Nat} {v : Word}
    {x : α} (hok : v.toNat ≤ hi ∨ active = false → c = .ok x)
    (herror : active = true → hi < v.toNat → c = .error ⟨arg, 0, BitVec.ofNat 64 hi, v⟩) :
    violationsOf c = offenceIf active arg hi v := by
  unfold offenceIf
  split
  case isTrue h =>
    obtain ⟨hactive, hv⟩ := h
    rw [herror hactive hv, violationsOf]
  case isFalse h =>
    have hpass : v.toNat ≤ hi ∨ active = false := by
      rw [not_and_or, Nat.not_lt, Bool.not_eq_true] at h
      exact h.symm
    rw [hok hpass, violationsOf]

theorem violationsOf_bitPos (chk : Bool) (w : Width) (pos : Word) :
    violationsOf (bitPos chk w pos) = offenceIf chk .b (w.bits - 1) pos := by
  have hw : 0 < w.bits := Width.bits_pos w
  refine violationsOf_eq_offenceIf (fun h => bitPos_ok chk w pos (h.imp_left fun hle => by omega)) ?_
  rintro rfl hlt
  exact bitPos_error w pos (by omega)

theorem violationsOf_lanePos (chk : Bool) (w : Width) (pos : Word) :
    violationsOf (lanePos chk w pos) = offenceIf chk .b (w.bits / 8 - 1) pos := by
  have hw : 0 < w.bits / 8 := by cases w <;> decide
  refine violationsOf_eq_offenceIf (fun h => lanePos_ok chk w pos (h.imp_left fun hle => by omega)) ?_
  rintro rfl hlt
  exact lanePos_error w pos (by omega)

/-- R113: the row of the bit value is active in both profiles. -/
theorem violationsOf_bitValue (c : Word) : violationsOf (bitValue c) = offenceIf true .c 1 c :=
  violationsOf_eq_offenceIf (fun h => bitValue_ok c (h.resolve_right (by decide)))
    fun _ => bitValue_error c

/-- The coordinate check reads the low 32 bits of its operand field, and records them extended to 64. -/
theorem zext64_setWidth_key (v : Word) : zext64 (v.setWidth 32 : Key) = low32 v := by
  rw [zext64_eq_ofNat, BitVec.toNat_setWidth, low32]

theorem toNat_low32 (v : Word) : (low32 v).toNat = (v.setWidth 32 : Key).toNat := by
  rw [low32, BitVec.toNat_ofNat, BitVec.toNat_setWidth]
  omega

theorem violationsOf_coordinate (chk : Bool) (arg : Arg) (v : Word) :
    violationsOf (coordinate chk arg (v.setWidth 32)) = offenceIf chk arg 1023 (low32 v) := by
  refine violationsOf_eq_offenceIf (fun h => coordinate_ok chk arg _ (toNat_low32 v ▸ h)) ?_
  rintro rfl hlt
  rw [coordinate_error arg _ (toNat_low32 v ▸ hlt), zext64_setWidth_key]
  rfl

/-! ### The rows of a command carried to its response -/

/-- R114: from `s`, the outcome `p` is the RangeViolation with the record of the first violation listed, or an OK response when
none is; nothing but the response changes. -/
def AnswersFirst (s : State) (p : Result) : List Violation → Prop
  | [] => ∃ q0 q1 q2 : Word, p = .next (answer s (.ok q0 q1 q2))
  | e :: _ => p = .next (raiseRange s e)

theorem return3_answersFirst (s : State) (x y z : Word) : AnswersFirst s (return3 s x y z) [] :=
  ⟨x, y, z, return3_answers s x y z⟩

theorem return1_answersFirst (s : State) (q : Word) : AnswersFirst s (return1 s q) [] :=
  ⟨q, 0, 0, return1_answers s q⟩

/-- A check comes before the rest of its command: its violation, if any, is the first. -/
theorem checked_answersFirst {α : Type} {s : State} {c : Except Violation α} {k : α → Result} {row rows : List Violation}
    (hc : violationsOf c = row) (hk : ∀ v, AnswersFirst s (k v) rows) : AnswersFirst s (checked s c k) (row ++ rows) := by
  subst hc
  cases c with
  | error e => exact checked_error s e k
  | ok v => exact hk v

/-- The same for the last check of a command. -/
theorem checked_last_answersFirst {α : Type} {s : State} {c : Except Violation α} {k : α → Result} {row : List Violation}
    (hc : violationsOf c = row) (hk : ∀ v, AnswersFirst s (k v) []) : AnswersFirst s (checked s c k) row :=
  List.append_nil row ▸ checked_answersFirst hc hk

/-- R112: the checks of every instruction are its rows of the table, in the order of R114. -/
theorem exec_answersFirst (i : Instr) (s : State) : AnswersFirst s (exec i s) (offences s.chk i s.req) := by
  cases i with
  | bitAt w | setBitAt w | unsetBitAt w | toggleBitAt w =>
    exact checked_last_answersFirst (violationsOf_bitPos s.chk w s.req.b) fun _ => return1_answersFirst s _
  | setBit w =>
    exact checked_answersFirst (violationsOf_bitPos s.chk w s.req.b) fun _ =>
      checked_last_answersFirst (violationsOf_bitValue s.req.c) fun _ => return1_answersFirst s _
  | byteAt w | setByteAt w =>
    exact checked_last_answersFirst (violationsOf_lanePos s.chk w s.req.b) fun _ => return1_answersFirst s _
  | menc =>
    rw [offences, List.append_assoc]
    exact checked_answersFirst (violationsOf_coordinate s.chk .a s.req.a) fun _ =>
      checked_answersFirst (violationsOf_coordinate s.chk .b s.req.b) fun _ =>
        checked_last_answersFirst (violationsOf_coordinate s.chk .c s.req.c) fun _ => return1_answersFirst s _
  | mdec => exact return3_answersFirst s _ _ _
  | popCount _ | isPow2 _ | kadd | ksub | keq | incX | incY | incXY | incZ | incXZ | incYZ | incXYZ
  | decX | decY | decXY | decZ | decXZ | decYZ | decXYZ => exact return1_answersFirst s _

/-- Settles O29: the first violation of the table decides the response of every instruction. -/
theorem rangeViolationHasExactlyTheTabulatedCauses : Obligations.RangeViolationHasExactlyTheTabulatedCauses := by
  intro i s
  have hfirst : AnswersFirst s (exec i s) (offences s.chk i s.req) := exec_answersFirst i s
  constructor
  · intro e rest hrows
    rwa [hrows] at hfirst
  · intro hrows
    rwa [hrows] at hfirst

end Sys2Proof.Machine
end

