-- ==== Sys2Proof/Proofs/Encoding.lean ====
section
/-! PROOFS. Decoding and encoding as each other's inverse (spec/30_encoding.md sections 1 and 3). -/

namespace Sys2Proof

/-- Settles O1: a word that decodes is the encoding of what it decodes to, and every encoding decodes to its instruction. -/
theorem decodeAndEncodeAgree : Obligations.DecodeAndEncodeAgree := by
  intro cmd i
  constructor
  · exact encode_of_decode_ok
  · rintro rfl
    exact decode_encode i

/-- The number of legal words among the 64 of an instruction group, `CMD[7:6]`. -/
def legalInGroup (g : Nat) : Nat := (List.range 64).countP fun c => legalCommand (BitVec.ofNat 8 (64 * g + c))

/-- Nine functions at four widths in format B, five in format K, two directions of seven axis sets in format S (R45). -/
theorem legalInGroup_eq : legalInGroup 0 = 36 ∧ legalInGroup 1 = 5 ∧ legalInGroup 2 = 14 ∧ legalInGroup 3 = 0 :=
  ⟨by decide, by decide, by decide, by decide⟩

theorem countP_legal_eq_groups : (List.range 256).countP (fun c => legalCommand (BitVec.ofNat 8 c)) =
    legalInGroup 0 + legalInGroup 1 + legalInGroup 2 + legalInGroup 3 := by
  rw [show 256 = 64 + 64 + 64 + 64 from rfl, List.range_add, List.range_add, List.range_add]
  simp only [List.countP_append, List.countP_map]
  rfl

/-- Settles O2: the legal words are encodings (O1), the reserved words are read off the decode procedure, and the legal words are
counted group by group. -/
theorem specWordsDecodeToTheirMnemonics : Obligations.SpecWordsDecodeToTheirMnemonics := by
  obtain ⟨hB, hK, hS, hReserved⟩ := legalInGroup_eq
  refine ⟨decode_encode (.bitAt .w8), decode_encode (.setBit .w16), decode_encode (.popCount .w32),
    decode_encode (.setByteAt .w64), decode_encode .menc, decode_encode .keq, decode_encode .incXZ,
    decode_encode .decXYZ, rfl, rfl, rfl, rfl, rfl, rfl, ?_⟩
  rw [countP_legal_eq_groups, hB, hK, hS, hReserved]

end Sys2Proof
end

