-- ==== Sys2Proof/Proofs/StepOutcomes.lean ====
section
/-! PROOFS. What a step answers: the host's reset, the waiting step, a command with exactly one response and nothing else changed
(spec/60_exceptions.md R107, R116), and the invariant that the response on the port is lawful. -/

namespace Sys2Proof.Machine

/-! ### The kinds of step -/

theorem step_of_no_input {s : State} (hin : s.inputs = []) : step s = .next (idle s) := by
  simp only [step, hin]

theorem step_of_reset {s : State} {strap : Bool} {rest : List HostStep} (hin : s.inputs = .reset strap :: rest) :
    step s = .next (applyReset strap rest) := by
  simp only [step, hin]

/-- Settles O3: accepting the request gives the state that the statement writes out. -/
theorem stepRunsTheDecodedCommand : Obligations.StepRunsTheDecodedCommand := by
  intro s r rest i hin hd
  exact step_of_command_ok hin hd

/-- Settles O5: the reset step is `applyReset`. -/
theorem resetStepReplacesTheStateByTheStrap : Obligations.ResetStepReplacesTheStateByTheStrap := by
  intro s strap rest hin
  exact step_of_reset hin

/-- Settles O6: the waiting step is `idle`. -/
theorem withNothingPresentedBsmcWaits : Obligations.WithNothingPresentedBsmcWaits := by
  intro s hin
  exact step_of_no_input hin

/-- Settles O7: the fields of the state after reset. -/
theorem resetHoldsTheStrapAndNoResponse : Obligations.ResetHoldsTheStrapAndNoResponse :=
  fun strap => ⟨resetWith_chk strap, resetWith_rsp strap, resetWith_inputs strap⟩

/-! ### One response, and nothing else -/

/-- Every instruction ends by putting one response on the port. -/
theorem exec_answers (i : Instr) (s : State) : ∃ x, exec i s = .next (answer s x) := by
  obtain ⟨x, hx, _⟩ := exec_answersAlike i (rfl : s.chk = s.chk) (rfl : s.req = s.req)
  exact ⟨x, hx⟩

/-- A presented command, legal or reserved, is answered on the state that has accepted it. -/
theorem step_of_command {s : State} {r : Request} {rest : List HostStep} (hin : s.inputs = .command r :: rest) :
    ∃ x, step s = .next (answer (accept s r rest) x) := by
  obtain ⟨x, hx, _⟩ := step_answersAlike hin hin rfl
  exact ⟨x, hx⟩

/-- Settles O9: `answer` changes the response port only. -/
theorem commandsChangeNothingButTheirResponse : Obligations.CommandsChangeNothingButTheirResponse :=
  exec_answers

/-- Settles O8: waiting and reset leave no response on the port, a command leaves one. -/
theorem everyStepAnswersAndEveryCommandGetsOneResponse :
    Obligations.EveryStepAnswersAndEveryCommandGetsOneResponse := by
  intro s
  rcases hin : s.inputs with _ | ⟨_ | _, rest⟩
  case nil => exact ⟨_, step_of_no_input hin, by simp⟩
  case cons.command r =>
    obtain ⟨x, hx⟩ := step_of_command hin
    exact ⟨_, hx, by simp⟩
  case cons.reset strap => exact ⟨_, step_of_reset hin, by simp⟩

/-! ### The response on the port is lawful -/

/-- A row of the cause table that reports a violation reports a value above its range (R109, R112). -/
theorem offenceIf_value_above {active : Bool} {arg : Arg} {hi : Nat} {v : Word} {e : Violation}
    (he : e ∈ offenceIf active arg hi v) : e.lo.toNat ≤ e.hi.toNat ∧ e.hi.toNat < e.val.toNat := by
  unfold offenceIf at he
  split at he
  case isTrue h =>
    obtain rfl := List.mem_singleton.mp he
    have hv : v.toNat < 2 ^ 64 := v.isLt
    exact ⟨Nat.zero_le _, by rw [BitVec.toNat_ofNat, Nat.mod_eq_of_lt (by omega)]; exact h.2⟩
  case isFalse => cases he

/-- So does every violation of a command, since each is of some row. -/
theorem offences_value_above {chk : Bool} {i : Instr} {r : Request} {e : Violation} (he : e ∈ offences chk i r) :
    e.lo.toNat ≤ e.hi.toNat ∧ e.hi.toNat < e.val.toNat := by
  cases i with
  | bitAt | setBitAt | unsetBitAt | toggleBitAt | byteAt | setByteAt => exact offenceIf_value_above he
  | setBit =>
    rcases List.mem_append.mp he with he | he
    · exact offenceIf_value_above he
    · exact offenceIf_value_above he
  | menc =>
    rw [offences, List.mem_append, List.mem_append] at he
    rcases he with (he | he) | he
    · exact offenceIf_value_above he
    · exact offenceIf_value_above he
    · exact offenceIf_value_above he
  | _ => cases he

/-- An OK response of any command but MDEC has empty side lanes (R43). -/
theorem side_lanes_zero {i : Instr} {s : State} {q0 q1 q2 : Word} (h : exec i s = .next (answer s (.ok q0 q1 q2)))
    (hi : i ≠ .mdec) : q1 = 0 ∧ q2 = 0 := by
  obtain ⟨_, h1, h2⟩ := exec_resultsBelow i s _ q0 q1 q2 h rfl
  rw [sideBits, if_neg hi, pow_zero, Nat.lt_one_iff] at h1 h2
  exact ⟨BitVec.eq_of_toNat_eq h1, BitVec.eq_of_toNat_eq h2⟩

/-- A command answers lawfully for the request on the port: with OK if its violations are none, with the first of them if not. -/
theorem exec_keeps_lawful {i : Instr} {s t : State} (hd : decode s.req.cmd = .ok i) (h : exec i s = .next t) :
    Lawful t := by
  have hfirst := exec_answersFirst i s
  cases hrows : offences s.chk i s.req with
  | nil =>
    rw [hrows] at hfirst
    obtain ⟨q0, q1, q2, hok⟩ := hfirst
    obtain rfl : answer s (.ok q0 q1 q2) = t := Host.Outcome.next.inj (hok.symm.trans h)
    rintro _ ⟨⟩
    exact ⟨i, hd, hrows, side_lanes_zero hok⟩
  | cons e rest =>
    rw [hrows] at hfirst
    obtain rfl : raiseRange s e = t := Host.Outcome.next.inj (hfirst.symm.trans h)
    obtain ⟨hlo, hhi⟩ := offences_value_above (hrows ▸ List.mem_cons_self : e ∈ offences s.chk i s.req)
    rintro _ ⟨⟩
    exact ⟨rfl, hlo, hhi, i, hd, congrArg List.head? hrows⟩

theorem lawful_of_no_response {s : State} (h : s.rsp = none) : Lawful s := by
  intro r hr
  rw [h] at hr
  cases hr

/-- Settles O36: waiting and reset clear the port; a reserved word is answered as illegal; the rest is `exec_keeps_lawful`.
The response that was on the port before plays no part. -/
theorem everyStepKeepsTheResponseLawful : Obligations.EveryStepKeepsTheResponseLawful := by
  intro s t _ hstep
  rcases step_cases s t hstep with ⟨_, rfl⟩ | ⟨strap, rest, _, rfl⟩ | ⟨r, rest, i, _, hd, hexec⟩ | ⟨r, rest, e, _, hd, rfl⟩
  · exact lawful_of_no_response (idle_rsp s)
  · exact lawful_of_no_response (applyReset_rsp strap rest)
  · exact exec_keeps_lawful hd hexec
  · rintro _ ⟨⟩
    exact ⟨rfl, (illegalCommand_iff_decode_error r.cmd).mpr ⟨e, hd⟩⟩

/-- Settles O37: no response is on the port. -/
theorem resetIsLawful : Obligations.ResetIsLawful :=
  ⟨fun strap => lawful_of_no_response (resetWith_rsp strap), lawful_of_no_response (resetWith_rsp _)⟩

/-! ### The flat image of a response -/

theorem statusCode_ne_three (r : Response) : statusCode r ≠ 3 := by
  cases r with
  | ok => exact (by decide : (0 : BitVec 2) ≠ 3)
  | range => exact (by decide : (1 : BitVec 2) ≠ 3)
  | illegal => exact (by decide : (2 : BitVec 2) ≠ 3)

theorem fields_status (r : Response) : r.fields.status = statusCode r := by
  cases r <;> rfl

/-- Settles O38: the image of each response by its definition; its status is one of the three codes. -/
theorem flatResponseImageMatchesTheFieldList : Obligations.FlatResponseImageMatchesTheFieldList := by
  refine ⟨fun q0 q1 q2 => rfl, fun op lo hi val => ⟨rfl, rfl, rfl⟩, fun op => rfl, fun r => ?_⟩
  rw [fields_status]
  exact statusCode_ne_three r

end Sys2Proof.Machine
end

