-- ==== Sys2Proof/Proofs/Profiles.lean ====
section
/-! PROOFS. The two profiles (spec/60_exceptions.md R113). A check whose row of the cause table is silent passes with one value in
both profiles, so a command with no violation in the checked profile goes on alike in both. -/

namespace Sys2Proof.Machine

/-- A row of the checked profile that reports nothing has its value in range. -/
theorem le_of_offenceIf_nil {arg : Arg} {hi : Nat} {v : Word} (h : offenceIf true arg hi v = []) : v.toNat ≤ hi := by
  unfold offenceIf at h
  split at h
  case isTrue => cases h
  case isFalse hout => exact Nat.le_of_not_lt fun hv => hout ⟨rfl, hv⟩

theorem bitPos_profiles_eq {w : Width} {pos : Word} (h : offenceIf true .b (w.bits - 1) pos = []) :
    bitPos false w pos = bitPos true w pos := by
  have hle : pos.toNat ≤ w.bits - 1 := le_of_offenceIf_nil h
  have hlt : pos.toNat < w.bits := Nat.lt_of_le_of_lt hle (Nat.sub_one_lt (Width.bits_pos w).ne')
  rw [bitPos_ok _ _ _ (.inl hlt), bitPos_ok _ _ _ (.inl hlt)]

theorem lanePos_profiles_eq {w : Width} {pos : Word} (h : offenceIf true .b (w.bits / 8 - 1) pos = []) :
    lanePos false w pos = lanePos true w pos := by
  have hle : pos.toNat ≤ w.bits / 8 - 1 := le_of_offenceIf_nil h
  have hw : 0 < w.bits / 8 := by cases w <;> decide
  have hlt : pos.toNat < w.bits / 8 := Nat.lt_of_le_of_lt hle (Nat.sub_one_lt hw.ne')
  rw [lanePos_ok _ _ _ (.inl hlt), lanePos_ok _ _ _ (.inl hlt)]

theorem coordinate_profiles_eq {arg : Arg} {v : Word} (h : offenceIf true arg 1023 (low32 v) = []) :
    coordinate false arg (v.setWidth 32) = coordinate true arg (v.setWidth 32) := by
  have hle : (v.setWidth 32 : Key).toNat ≤ 1023 := toNat_low32 v ▸ le_of_offenceIf_nil h
  rw [coordinate_ok _ _ _ (.inl hle), coordinate_ok _ _ _ (.inl hle)]

/-- The state with a given profile. -/
def withProfile (chk : Bool) (s : State) : State := { s with chk := chk }

theorem exec_profiles_answersAlike {i : Instr} {s : State} (h : offences true i s.req = []) :
    AnswersAlike (withProfile true s) (withProfile false s) (exec i (withProfile true s))
      (exec i (withProfile false s)) := by
  have hcmd : (withProfile false s).req.cmd = (withProfile true s).req.cmd := rfl
  cases i with
  | bitAt w | setBitAt w | unsetBitAt w | toggleBitAt w =>
    exact checked_answersAlike_of_cmd hcmd (bitPos_profiles_eq h) fun _ => return1_answersAlike _ _ _
  | setBit w =>
    obtain ⟨hpos, _⟩ := List.append_eq_nil_iff.mp h
    exact checked_answersAlike_of_cmd hcmd (bitPos_profiles_eq hpos) fun _ =>
      checked_answersAlike_of_cmd hcmd rfl fun _ => return1_answersAlike _ _ _
  | byteAt w | setByteAt w =>
    exact checked_answersAlike_of_cmd hcmd (lanePos_profiles_eq h) fun _ => return1_answersAlike _ _ _
  | menc =>
    obtain ⟨hxy, hz⟩ := List.append_eq_nil_iff.mp h
    obtain ⟨hx, hy⟩ := List.append_eq_nil_iff.mp hxy
    exact checked_answersAlike_of_cmd hcmd (coordinate_profiles_eq hx) fun _ =>
      checked_answersAlike_of_cmd hcmd (coordinate_profiles_eq hy) fun _ =>
        checked_answersAlike_of_cmd hcmd (coordinate_profiles_eq hz) fun _ => return1_answersAlike _ _ _
  | mdec => exact return3_answersAlike _ _ _ _ _
  | popCount _ | isPow2 _ | kadd | ksub | keq | incX | incY | incXY | incZ | incXZ | incYZ | incXYZ
  | decX | decY | decXY | decZ | decXZ | decYZ | decXYZ => exact return1_answersAlike _ _ _

/-- Settles O30: the common answer is OK, since in the checked profile the command has no violation. -/
theorem inRangeCommandsAnswerAlikeInBothProfiles : Obligations.InRangeCommandsAnswerAlikeInBothProfiles := by
  intro i s h
  have hfirst : AnswersFirst (withProfile true s) (exec i (withProfile true s)) [] :=
    h ▸ exec_answersFirst i (withProfile true s)
  obtain ⟨q0, q1, q2, hok⟩ := hfirst
  obtain ⟨x, htrue, hfalse⟩ := exec_profiles_answersAlike h
  have hx : Response.ok q0 q1 q2 = x :=
    Option.some.inj (congrArg State.rsp (Host.Outcome.next.inj (hok.symm.trans htrue)))
  exact ⟨q0, q1, q2, hok, hx ▸ hfalse⟩

end Sys2Proof.Machine
end

