-- ==== Sys2Proof/Proofs/Runs.lean ====
section
/-! PROOFS. Runs: any list of commands (spec/20_memory.md R31, spec/60_exceptions.md R117), any number of steps without a reset
(spec/70_reset_and_hazards.md R129), and host scripts (R135). -/

namespace Sys2Proof.Machine

/-! ### A command alone after reset -/

/-- The answer to a request at the head of the host's steps is the only answer a freshly reset BSMC of the same profile gives when
it is presented that request alone. -/
theorem step_answers_as_alone {s : State} {r : Request} {rest : List HostStep} (hin : s.inputs = .command r :: rest) :
    ∃ x, step s = .next (answer (accept s r rest) x) ∧
      responsesIn 1 (present (State.resetWith s.chk) r) = [x] := by
  obtain ⟨x, hs, halone⟩ := step_answersAlike (s' := present (State.resetWith s.chk) r) hin rfl rfl
  refine ⟨x, hs, ?_⟩
  simp only [responsesIn, halone, answer_rsp, Option.toList_some, List.append_nil]

/-! ### A list of commands -/

/-- Settles O34, by induction on the commands: the first is answered as if alone, and leaves the profile and the later commands as
they were. -/
theorem runOfCommandsAnswersEachAsIfAlone : Obligations.RunOfCommandsAnswersEachAsIfAlone := by
  intro s reqs
  induction reqs generalizing s with
  | nil => exact fun _ => ⟨rfl, rfl⟩
  | cons r reqs ih =>
    intro hin
    obtain ⟨x, hstep, halone⟩ := step_answers_as_alone hin
    obtain ⟨hrest, hlen⟩ := ih (answer (accept s r (reqs.map HostStep.command)) x) rfl
    have hrun : responsesIn (reqs.length + 1) s =
        x :: responsesIn reqs.length (answer (accept s r (reqs.map HostStep.command)) x) := by
      rw [responsesIn, hstep]
      rfl
    rw [List.length_cons, hrun, List.flatMap_cons, halone]
    exact ⟨congrArg (x :: ·) hrest, congrArg (· + 1) hlen⟩

/-! ### Steps without a reset -/

/-- No step of the host still outstanding is a reset. -/
def NoReset (s : State) : Prop := ∀ strap : Bool, HostStep.reset strap ∉ s.inputs

/-- Without a reset a step keeps the profile and brings no reset in. -/
theorem step_keeps_profile {s : State} (h : NoReset s) : ∃ t, step s = .next t ∧ t.chk = s.chk ∧ NoReset t := by
  rcases hin : s.inputs with _ | ⟨_ | _, rest⟩
  case nil => exact ⟨_, step_of_no_input hin, rfl, h⟩
  case cons.command r =>
    obtain ⟨x, hx⟩ := step_of_command hin
    exact ⟨_, hx, rfl, fun strap hmem => h strap (hin ▸ List.mem_cons_of_mem _ hmem)⟩
  case cons.reset strap => exact absurd (hin ▸ List.mem_cons_self) (h strap)

theorem run_of_step {M : Host.Core} {s t : M.State} (h : M.step s = .next t) (k : Nat) :
    M.run (k + 1) s = M.run k t := by
  simp only [Host.Core.run, h]

/-- Settles O35, by induction on the number of steps. -/
theorem profileIsFixedBetweenResets : Obligations.ProfileIsFixedBetweenResets := by
  intro k
  induction k with
  | zero => exact fun s _ => ⟨s, rfl, rfl⟩
  | succ k ih =>
    intro s h
    obtain ⟨t, hstep, hchk, ht⟩ := step_keeps_profile h
    obtain ⟨u, hrun, hu⟩ := ih t ht
    exact ⟨u, (run_of_step (M := Sys2Proof.core) hstep k).trans hrun, hu.trans hchk⟩

/-! ### Host scripts -/

/-- A line whose request is known takes one step, answered as if alone, and the run goes on with that answer recorded. -/
theorem runLines_cons {s : State} {got : List Response} {l : Line} {r : Request} (hr : lineRequest got l = some r) :
    ∃ (x : Response) (t : State), t.chk = s.chk ∧ responsesIn 1 (present (State.resetWith s.chk) r) = [x] ∧
      ∀ rest, runLines s got (l :: rest) = runLines t (got ++ [x]) rest := by
  obtain ⟨x, hstep, halone⟩ := step_answers_as_alone (s := present s r) (r := r) (rest := []) rfl
  refine ⟨x, answer (accept (present s r) r []) x, rfl, halone, fun rest => ?_⟩
  simp only [runLines, hr, hstep, answer_rsp]

/-- The script line of a request, its operands written as literals. -/
def literalLine (r : Request) : Line := ⟨r.cmd, .lit r.a, .lit r.b, .lit r.c⟩

theorem lineRequest_literalLine (got : List Response) (r : Request) : lineRequest got (literalLine r) = some r := rfl

theorem runLines_literal (reqs : List Request) (s : State) (got : List Response) :
    ∃ (rs : List Response) (t : State), runLines s got (reqs.map literalLine) = some (rs, t) ∧
      rs.length = got.length + reqs.length ∧ t.chk = s.chk := by
  induction reqs generalizing s got with
  | nil => exact ⟨got, s, rfl, rfl, rfl⟩
  | cons r reqs ih =>
    obtain ⟨x, t, hchk, _, hrun⟩ := runLines_cons (s := s) (lineRequest_literalLine got r)
    obtain ⟨rs, u, hrest, hlen, hu⟩ := ih t (got ++ [x])
    refine ⟨rs, u, (hrun _).trans hrest, ?_, hu.trans hchk⟩
    rw [hlen, List.length_append, List.length_singleton, List.length_cons, Nat.add_assoc, Nat.add_comm 1]

/-- Settles O57: a literal line always has its request, so no line ends the run. -/
theorem literalScriptsAnswerEveryLine : Obligations.LiteralScriptsAnswerEveryLine := by
  intro strap reqs
  obtain ⟨rs, t, hrun, hlen, hchk⟩ := runLines_literal reqs (State.resetWith strap) []
  exact ⟨rs, t, hrun, hlen.trans (Nat.zero_add _), hchk⟩

/-- After the responses `got`, the lines `ls` are answered in turn by `new`: each line's request is taken from the responses before
it, and its answer is the one a freshly reset BSMC of profile `chk` gives to that request alone. -/
def AnsweredInTurn (chk : Bool) (got : List Response) (ls : List Line) (new : List Response) : Prop :=
  new.length = ls.length ∧ ∀ (k : Nat) (l : Line), ls[k]? = some l → ∃ (r : Request) (x : Response),
    lineRequest (got ++ new.take k) l = some r ∧ new[k]? = some x ∧
    responsesIn 1 (present (State.resetWith chk) r) = [x]

theorem AnsweredInTurn.nil (chk : Bool) (got : List Response) : AnsweredInTurn chk got [] [] :=
  ⟨rfl, fun k l hl => by cases hl⟩

theorem AnsweredInTurn.cons {chk : Bool} {got : List Response} {l : Line} {ls : List Line} {new : List Response}
    {r : Request} {x : Response} (hr : lineRequest got l = some r)
    (hx : responsesIn 1 (present (State.resetWith chk) r) = [x])
    (h : AnsweredInTurn chk (got ++ [x]) ls new) : AnsweredInTurn chk got (l :: ls) (x :: new) := by
  obtain ⟨hlen, hlines⟩ := h
  refine ⟨congrArg (· + 1) hlen, fun k l' hl' => ?_⟩
  cases k with
  | zero =>
    obtain rfl : l = l' := Option.some.inj hl'
    exact ⟨r, x, by rwa [List.take_zero, List.append_nil], rfl, hx⟩
  | succ k =>
    obtain ⟨r', x', hr', hx', halone⟩ := hlines k l' hl'
    refine ⟨r', x', ?_, hx', halone⟩
    rwa [List.append_assoc] at hr'

/-- A run of lines that ends has appended one answer per line, each in its turn. -/
theorem runLines_answersInTurn (ls : List Line) (s t : State) (got rs : List Response)
    (hrun : runLines s got ls = some (rs, t)) :
    t.chk = s.chk ∧ ∃ new, rs = got ++ new ∧ AnsweredInTurn s.chk got ls new := by
  induction ls generalizing s got with
  | nil =>
    cases hrun
    exact ⟨rfl, [], (List.append_nil _).symm, .nil _ _⟩
  | cons l ls ih =>
    cases hr : lineRequest got l with
    | none => simp [runLines, hr] at hrun
    | some r =>
      obtain ⟨x, u, hchk, halone, hcons⟩ := runLines_cons (s := s) hr
      obtain ⟨ht, new, rfl, hnew⟩ := ih u (got ++ [x]) ((hcons ls).symm.trans hrun)
      exact ⟨ht.trans hchk, x :: new, by rw [List.append_assoc, List.singleton_append],
        .cons hr halone (hchk ▸ hnew)⟩

/-- Settles O58: from reset no response has been given yet, so the answers in turn are the responses of the run. -/
theorem scriptRunAnswersEachLineByItsOwnRequest : Obligations.ScriptRunAnswersEachLineByItsOwnRequest := by
  intro sc rs t hrun
  obtain ⟨hchk, new, rfl, hlen, hlines⟩ := runLines_answersInTurn sc.lines _ t [] rs hrun
  exact ⟨hlen, hchk, hlines⟩

end Sys2Proof.Machine
end

