-- ==== Sys2Proof/Proofs/SingleAnswers.lean ====
section
/-! PROOFS. The answer to one format-B command alone, as the laws of spec/40_bit_primitives.md section 5 chain it: each command
by an equation, and a W-bit lane given back to a command as its operand. -/

namespace Sys2Proof.Machine

/-- The state on which `answerTo` executes a command. -/
def soleCommand (chk : Bool) (i : Instr) (a b c : Word) : State := ⟨chk, ⟨encode i, a, b, c⟩, none, []⟩

theorem answerTo_of_exec {chk : Bool} {i : Instr} {a b c : Word} {x : Response}
    (h : exec i (soleCommand chk i a b c) = .next (answer (soleCommand chk i a b c) x)) :
    answerTo chk i a b c = some x := by
  rw [soleCommand] at h
  simp only [answerTo, h, answer_rsp]

theorem lane0_of_answerTo {chk : Bool} {i : Instr} {a b c q0 q1 q2 : Word}
    (h : answerTo chk i a b c = some (.ok q0 q1 q2)) : lane0 chk i a b c = some q0 := by
  rw [lane0, h]

/-! ### A lane as an operand -/

theorem setWidth_zext64 {n : Nat} (hn : n ≤ 64) (v : BitVec n) : (zext64 v).setWidth n = v := by
  rw [zext64, BitVec.setWidth_setWidth_of_le _ hn, BitVec.setWidth_eq]

theorem zext64_setWidth {n : Nat} (v : Word) : zext64 (v.setWidth n) = keepLow n v := by
  rw [zext64_eq_ofNat, BitVec.toNat_setWidth, keepLow]

/-- One bit as a result. -/
theorem zext64_readBit {n : Nat} (v : BitVec n) (p : Nat) :
    zext64 (readBit v p) = BitVec.ofNat 64 (v.getLsbD p).toNat := by
  apply BitVec.eq_of_getLsbD_eq
  intro j hj
  rw [getLsbD_zext64, getLsbD_readBit, decide_eq_true hj, Bool.true_and]
  cases v.getLsbD p with
  | false => simp
  | true => simp [BitVec.getLsbD_one]

/-! ### Commands that address one bit -/

/-- A command that checks its position and then applies `op` to the value operand answers with `op` on the low W bits. -/
theorem answerTo_positionCommand {i : Instr} {w : Width} {op : BitVec w.bits → Nat → BitVec w.bits}
    (hi : ∀ s, exec i s = checked s (bitPos s.chk w s.req.b) fun p => return1 s (zext64 (op (valueOp w s) p)))
    {chk : Bool} {pos : Word} (hpos : pos.toNat < w.bits ∨ chk = false) (v c : Word) :
    answerTo chk i v pos c = some (.ok (zext64 (op (v.setWidth w.bits) (pos.toNat % w.bits))) 0 0) := by
  apply answerTo_of_exec
  rw [hi, checked_bitPos_ok (s := soleCommand chk i v pos c) hpos, return1_answers]
  rfl

section InRange

variable (chk : Bool) {w : Width} {pos : Word} (hpos : pos.toNat < w.bits) (v : Word)
include hpos

theorem answerTo_bitAt :
    answerTo chk (.bitAt w) v pos 0 = some (.ok (BitVec.ofNat 64 (v.getLsbD pos.toNat).toNat) 0 0) := by
  rw [answerTo_positionCommand (exec_bitAt w) (.inl hpos), zext64_readBit, Nat.mod_eq_of_lt hpos,
    BitVec.getLsbD_setWidth, decide_eq_true hpos, Bool.true_and]

theorem answerTo_setBitAt :
    answerTo chk (.setBitAt w) v pos 0 = some (.ok (zext64 (forceOne (v.setWidth w.bits) pos.toNat)) 0 0) := by
  rw [answerTo_positionCommand (exec_setBitAt w) (.inl hpos), Nat.mod_eq_of_lt hpos]

theorem answerTo_unsetBitAt :
    answerTo chk (.unsetBitAt w) v pos 0 = some (.ok (zext64 (forceZero (v.setWidth w.bits) pos.toNat)) 0 0) := by
  rw [answerTo_positionCommand (exec_unsetBitAt w) (.inl hpos), Nat.mod_eq_of_lt hpos]

theorem answerTo_toggleBitAt :
    answerTo chk (.toggleBitAt w) v pos 0 = some (.ok (zext64 (flipBit (v.setWidth w.bits) pos.toNat)) 0 0) := by
  rw [answerTo_positionCommand (exec_toggleBitAt w) (.inl hpos), Nat.mod_eq_of_lt hpos]

end InRange

/-- SETBIT with a value that passes its check is a command that checks its position only. -/
theorem answerTo_setBit {chk : Bool} {w : Width} {pos c : Word} (hpos : pos.toNat < w.bits ∨ chk = false)
    (hc : c.toNat ≤ 1) (v : Word) : answerTo chk (.setBit w) v pos c =
      some (.ok (zext64 (assignBit (v.setWidth w.bits) (pos.toNat % w.bits) (c.setWidth 1))) 0 0) := by
  apply answerTo_of_exec
  rw [exec_setBit, checked_bitPos_ok (s := soleCommand chk (.setBit w) v pos c) hpos,
    checked_bitValue_ok (s := soleCommand chk (.setBit w) v pos c) hc, return1_answers]
  rfl

theorem answerTo_popCount (chk : Bool) (w : Width) (v b c : Word) :
    answerTo chk (.popCount w) v b c = some (.ok (BitVec.ofNat 64 (popCount (v.setWidth w.bits))) 0 0) :=
  answerTo_of_exec (exec_popCount w _)

/-! ### Byte lanes -/

theorem exec_setByteAt (w : Width) (s : State) : exec (.setByteAt w) s =
    checked s (lanePos s.chk w s.req.b) fun q =>
      return1 s (zext64 (replaceLane (valueOp w s) (laneShift w q) (byteOp s))) := rfl

section Lanes

variable (chk : Bool) {w : Width} {q : Word} (hq : q.toNat < w.bits / 8) (v : Word)
include hq

theorem answerTo_byteAt : answerTo chk (.byteAt w) v q 0 =
    some (.ok (zext64 (readLane (v.setWidth w.bits) (laneShift w q.toNat))) 0 0) := by
  apply answerTo_of_exec
  rw [exec_byteAt, checked_lanePos_ok (s := soleCommand chk (.byteAt w) v q 0) (.inl hq), return1_answers]
  exact congrArg (fun p => Host.Outcome.next (answer _ (.ok (zext64 (readLane _ (laneShift w p))) 0 0)))
    (Nat.mod_eq_of_lt hq)

theorem answerTo_setByteAt (b : Word) : answerTo chk (.setByteAt w) v q b =
    some (.ok (zext64 (replaceLane (v.setWidth w.bits) (laneShift w q.toNat) (b.setWidth 8))) 0 0) := by
  apply answerTo_of_exec
  rw [exec_setByteAt, checked_lanePos_ok (s := soleCommand chk (.setByteAt w) v q b) (.inl hq), return1_answers]
  exact congrArg (fun p => Host.Outcome.next (answer _ (.ok (zext64 (replaceLane _ (laneShift w p) _)) 0 0)))
    (Nat.mod_eq_of_lt hq)

end Lanes

end Sys2Proof.Machine
end

