-- ==== Sys2Proof/Proofs/BitLaws.lean ====
section
/-! PROOFS. The laws of the bit primitives (spec/40_bit_primitives.md sections 2, 4 and 5), each read off the bits of the
operations. -/

namespace Sys2Proof.Machine

/-! ### One position and the others -/

/-- Settles O39: the bit that SETBITAT or UNSETBITAT wrote is the bit that BITAT reads. -/
theorem bitReadBackAfterSetAndUnset : Obligations.BitReadBackAfterSetAndUnset := by
  intro chk w v pos hpos
  refine ⟨_, _, answerTo_setBitAt chk hpos v, ?readOne, answerTo_unsetBitAt chk hpos v, ?readZero⟩
  case readOne =>
    rw [answerTo_bitAt chk hpos, getLsbD_zext64_width, getLsbD_forceOne]
    simp [hpos]
  case readZero =>
    rw [answerTo_bitAt chk hpos, getLsbD_zext64_width, getLsbD_forceZero]
    simp

theorem getLsbD_forceOne_of_ne {n : Nat} (v : BitVec n) {p j : Nat} (h : j ≠ p) :
    (forceOne v p).getLsbD j = v.getLsbD j := by
  rw [forceOne, BitVec.getLsbD_or, getLsbD_one_shift, decide_eq_false h, Bool.and_false, Bool.or_false]

theorem getLsbD_flipBit_of_ne {n : Nat} (v : BitVec n) {p j : Nat} (h : j ≠ p) :
    (flipBit v p).getLsbD j = v.getLsbD j := by
  rw [flipBit, BitVec.getLsbD_xor, getLsbD_one_shift, decide_eq_false h, Bool.and_false, Bool.xor_false]

theorem getLsbD_forceZero_of_ne {n : Nat} (v : BitVec n) {p j : Nat} (hj : j < n) (h : j ≠ p) :
    (forceZero v p).getLsbD j = v.getLsbD j := by
  rw [getLsbD_forceZero, decide_eq_true hj, decide_eq_false h, Bool.true_and, Bool.not_false, Bool.and_true]

/-- A lane that agrees with the low W bits of a value at a position is read there as the value is. -/
theorem answerTo_bitAt_of_agree (chk : Bool) {w : Width} {pos : Word} (hpos : pos.toNat < w.bits) {v : Word}
    {u : BitVec w.bits} (h : u.getLsbD pos.toNat = (v.setWidth w.bits).getLsbD pos.toNat) :
    answerTo chk (.bitAt w) (zext64 u) pos 0 = answerTo chk (.bitAt w) v pos 0 := by
  rw [answerTo_bitAt chk hpos, answerTo_bitAt chk hpos, getLsbD_zext64_width, h, BitVec.getLsbD_setWidth,
    decide_eq_true hpos, Bool.true_and]

/-- Settles O40: each of the three operations keeps every bit but the addressed one. -/
theorem singleBitCommandsLeaveOtherPositionsAlone : Obligations.SingleBitCommandsLeaveOtherPositionsAlone := by
  intro chk w i v pos other hpos hother hne hi
  have hne' : other.toNat ≠ pos.toNat := fun h => hne (BitVec.eq_of_toNat_eq h.symm)
  have hread := answerTo_bitAt chk hother v
  rcases hi with rfl | rfl | rfl
  · exact ⟨_, _, answerTo_setBitAt chk hpos v,
      (answerTo_bitAt_of_agree chk hother (getLsbD_forceOne_of_ne _ hne')).trans hread, hread⟩
  · exact ⟨_, _, answerTo_unsetBitAt chk hpos v,
      (answerTo_bitAt_of_agree chk hother (getLsbD_forceZero_of_ne _ hother hne')).trans hread, hread⟩
  · exact ⟨_, _, answerTo_toggleBitAt chk hpos v,
      (answerTo_bitAt_of_agree chk hother (getLsbD_flipBit_of_ne _ hne')).trans hread, hread⟩

theorem assignBit_one {n : Nat} (v : BitVec n) (p : Nat) : assignBit v p 1 = forceOne v p := by
  apply BitVec.eq_of_getLsbD_eq
  intro j hj
  rw [getLsbD_assignBit, getLsbD_forceOne]
  by_cases h : j = p
  · simp [h]
  · simp [h]

theorem assignBit_zero {n : Nat} (v : BitVec n) (p : Nat) : assignBit v p 0 = forceZero v p := by
  apply BitVec.eq_of_getLsbD_eq
  intro j hj
  rw [getLsbD_assignBit, getLsbD_forceZero]
  by_cases h : j = p
  · simp [h]
  · simp [h]

/-- Settles O43: assigning 1 is forcing to 1, assigning 0 is forcing to 0. -/
theorem setBitUnifiesSetAndUnset : Obligations.SetBitUnifiesSetAndUnset := by
  intro chk w v pos hpos
  refine ⟨_, _, ?setOne, answerTo_positionCommand (exec_setBitAt w) hpos v 0, ?setZero,
    answerTo_positionCommand (exec_unsetBitAt w) hpos v 0⟩
  case setOne => exact assignBit_one (v.setWidth w.bits) _ ▸ answerTo_setBit hpos (by decide) v
  case setZero => exact assignBit_zero (v.setWidth w.bits) _ ▸ answerTo_setBit hpos (by decide) v

/-! ### Toggling a list of positions -/

/-- On a W-bit lane, toggling each position of a list is flipping each of those bits. -/
theorem toggleEach_zext64 (chk : Bool) (w : Width) (ps : List Nat) (hps : ∀ p ∈ ps, p < w.bits) (u : BitVec w.bits) :
    toggleEach chk w ps (zext64 u) = some (zext64 (ps.foldl flipBit u)) := by
  induction ps generalizing u with
  | nil => rfl
  | cons p ps ih =>
    obtain ⟨hp, hrest⟩ := List.forall_mem_cons.mp hps
    have hbits : w.bits ≤ 64 := Width.bits_le w
    have hpos : (BitVec.ofNat 64 p).toNat = p := by
      rw [BitVec.toNat_ofNat, Nat.mod_eq_of_lt (by omega)]
    have hlane := lane0_of_answerTo (answerTo_toggleBitAt chk (hpos.symm ▸ hp) (zext64 u))
    rw [hpos, setWidth_zext64 hbits] at hlane
    simp only [toggleEach, hlane]
    exact ih hrest (flipBit u p)

/-- The first TOGGLEBITAT narrows its operand, so a start value may be replaced by its low W bits. -/
theorem toggleEach_narrow (chk : Bool) (w : Width) {ps : List Nat} (hne : ps ≠ []) (hps : ∀ p ∈ ps, p < w.bits)
    (v : Word) : toggleEach chk w ps v = toggleEach chk w ps (zext64 (v.setWidth w.bits)) := by
  cases ps with
  | nil => exact absurd rfl hne
  | cons p ps =>
    have hp : p < w.bits := hps p List.mem_cons_self
    have hbits : w.bits ≤ 64 := Width.bits_le w
    have hpos : (BitVec.ofNat 64 p).toNat < w.bits := by
      rwa [BitVec.toNat_ofNat, Nat.mod_eq_of_lt (by omega)]
    have hv := answerTo_toggleBitAt chk hpos v
    have hu := answerTo_toggleBitAt chk hpos (zext64 (v.setWidth w.bits))
    rw [setWidth_zext64 hbits] at hu
    simp only [toggleEach, lane0_of_answerTo hv, lane0_of_answerTo hu]

/-- Flipping distinct positions changes exactly the listed bits, in whatever order. -/
theorem getLsbD_foldl_flipBit {n : Nat} {ps : List Nat} (hnodup : ps.Nodup) (u : BitVec n) {j : Nat} (hj : j < n) :
    (ps.foldl flipBit u).getLsbD j = (u.getLsbD j != decide (j ∈ ps)) := by
  induction ps generalizing u with
  | nil => simp
  | cons p ps ih =>
    obtain ⟨hp, hrest⟩ := List.nodup_cons.mp hnodup
    rw [List.foldl_cons, ih hrest, getLsbD_flipBit, decide_eq_true hj, Bool.true_and]
    by_cases h : j = p
    · subst h
      simp [hp]
    · simp [h]

/-- Flipping every position once complements the value. -/
theorem foldl_flipBit_of_perm {n : Nat} {ps : List Nat} (hps : ps.Perm (List.range n)) (u : BitVec n) :
    ps.foldl flipBit u = ~~~u := by
  apply BitVec.eq_of_getLsbD_eq
  intro j hj
  have hmem : j ∈ ps := hps.mem_iff.mpr (List.mem_range.mpr hj)
  rw [getLsbD_foldl_flipBit (hps.nodup_iff.mpr List.nodup_range) u hj, BitVec.getLsbD_not, decide_eq_true hj,
    decide_eq_true hmem, Bool.true_and, Bool.bne_true]

/-- Settles O41: the first round complements the low W bits, the second complements them back. -/
theorem togglingEveryPositionComplements : Obligations.TogglingEveryPositionComplements := by
  intro chk w v order horder
  have hps : ∀ p ∈ order, p < w.bits := fun p hp => List.mem_range.mp (horder.mem_iff.mp hp)
  have hne : order ≠ [] := by
    rintro rfl
    exact absurd horder.length_eq (by cases w <;> decide)
  have hround (u : BitVec w.bits) : toggleEach chk w order (zext64 u) = some (zext64 (~~~u)) := by
    rw [toggleEach_zext64 chk w order hps, foldl_flipBit_of_perm horder]
  refine ⟨zext64 (~~~(v.setWidth w.bits)), ?first, ?value, ?second⟩
  case first => rw [toggleEach_narrow chk w hne hps, hround]
  case value =>
    rw [zext64, BitVec.toNat_setWidth_of_le (Width.bits_le w), BitVec.toNat_not, BitVec.toNat_setWidth]
  case second => rw [hround, BitVec.not_not, zext64_setWidth]

/-! ### Counting -/

/-- Setting bit p adds to the count what was missing at p. -/
theorem popCount_forceOne {n : Nat} (v : BitVec n) {p : Nat} (hp : p < n) :
    popCount (forceOne v p) + (v.getLsbD p).toNat = popCount v + 1 := by
  have hset : (Finset.range n).filter (fun j => (forceOne v p).getLsbD j = true) =
      insert p ((Finset.range n).filter (fun j => v.getLsbD j = true)) := by
    ext j
    rw [Finset.mem_insert, Finset.mem_filter, Finset.mem_filter, Finset.mem_range, getLsbD_forceOne]
    by_cases h : j = p
    · simp [h, hp]
    · simp [h]
  rw [popCount, popCount, countOnes_eq_card, countOnes_eq_card, hset]
  cases h : v.getLsbD p with
  | false => rw [Finset.card_insert_of_notMem (by simp [h]), Bool.toNat_false]
  | true => rw [Finset.insert_eq_of_mem (by simp [h, hp]), Bool.toNat_true]

theorem countOnes_not {n : Nat} (v : BitVec n) (i : Nat) (hi : i ≤ n) : countOnes i (~~~v) + countOnes i v = i := by
  induction i with
  | zero => rfl
  | succ i ih =>
    have hbit : (~~~v).getLsbD i = !v.getLsbD i := by
      rw [BitVec.getLsbD_not, decide_eq_true (by omega), Bool.true_and]
    have hcount := ih (by omega)
    have hone : (!v.getLsbD i).toNat + (v.getLsbD i).toNat = 1 := by cases v.getLsbD i <;> rfl
    rw [countOnes, countOnes, hbit]
    omega

theorem setWidth_not (w : Width) (v : Word) : (~~~v).setWidth w.bits = ~~~(v.setWidth w.bits) :=
  BitVec.setWidth_not (Width.bits_le w)

/-- A count fits in its lane. -/
theorem toNat_ofNat_popCount (w : Width) (v : BitVec w.bits) : (BitVec.ofNat 64 (popCount v)).toNat = popCount v := by
  have hcount : popCount v ≤ w.bits := countOnes_le _ v
  have hbits : w.bits ≤ 64 := Width.bits_le w
  rw [BitVec.toNat_ofNat, Nat.mod_eq_of_lt (by omega)]

/-- Settles O42: the counts of the lanes are the counts of the W-bit values. -/
theorem popCountLaws : Obligations.PopCountLaws := by
  intro chk w v pos hpos
  refine ⟨_, _, _, _, _, answerTo_setBitAt chk hpos v, answerTo_bitAt chk hpos v, answerTo_popCount chk w v 0 0,
    answerTo_popCount chk w _ 0 0, answerTo_popCount chk w _ 0 0, ?grows, ?complement⟩
  case grows =>
    have hbit : (v.setWidth w.bits).getLsbD pos.toNat = v.getLsbD pos.toNat := by
      rw [BitVec.getLsbD_setWidth, decide_eq_true hpos, Bool.true_and]
    have hb : (BitVec.ofNat 64 (v.getLsbD pos.toNat).toNat).toNat = (v.getLsbD pos.toNat).toNat := by
      cases v.getLsbD pos.toNat <;> rfl
    rw [setWidth_zext64 (Width.bits_le w), toNat_ofNat_popCount, toNat_ofNat_popCount, hb, ← hbit]
    exact popCount_forceOne _ hpos
  case complement =>
    rw [setWidth_not, toNat_ofNat_popCount, toNat_ofNat_popCount]
    exact countOnes_not _ _ (Nat.le_refl _)

/-! ### Byte lanes -/

/-- Settles O18: in range the result's bits are those of the replaced value operand; a checked lane out of range faults. -/
theorem setByteAtReplacesOneLane : Obligations.SetByteAtReplacesOneLane := by
  intro w s
  rw [exec_setByteAt]
  refine ⟨decode_wordB (fn := 8) rfl, fun h m hm => ?_, fun hc h => checked_lanePos_error hc h _⟩
  subst hm
  rw [checked_lanePos_ok h, laneShift_eq, return1_answers]
  refine ⟨_, rfl, fun j => ?_⟩
  rw [getLsbD_zext64_width, getLsbD_replaceLane]
  refine below_width_and_congr fun hj => ?_
  split
  case isTrue hlane => rw [byteOp, BitVec.getLsbD_setWidth, decide_eq_true (by omega), Bool.true_and]
  case isFalse => rw [getLsbD_valueOp_of_lt hj]

/-- The lowest bit of a lane, and its seven bits above, lie below W. -/
theorem laneShift_add_lt {w : Width} (q : Nat) : laneShift w q + 7 < w.bits := by
  have hw : 8 ≤ w.bits := by cases w <;> decide
  rw [laneShift_eq]
  omega

/-- A replaced lane reads back as the new byte. -/
theorem readLane_replaceLane_same {w : Width} (v : BitVec w.bits) (q : Nat) (b : Byte) :
    zext64 (readLane (replaceLane v (laneShift w q) b) (laneShift w q)) = zext64 b := by
  apply BitVec.eq_of_getLsbD_eq
  intro j hj
  have hlane : laneShift w q + 7 < w.bits := laneShift_add_lt q
  rw [getLsbD_zext64, getLsbD_zext64, getLsbD_readLane, getLsbD_replaceLane]
  by_cases h : j < 8
  · simp [h, show laneShift w q + j < w.bits by omega]
  · simp [h, BitVec.getLsbD_of_ge b j (by omega)]

/-- A lane that does not overlap the replaced one reads back as before. -/
theorem readLane_replaceLane_of_disjoint {n : Nat} (v : BitVec n) {m m' : Nat} (b : Byte)
    (h : m' + 8 ≤ m ∨ m + 8 ≤ m') : readLane (replaceLane v m b) m' = readLane v m' := by
  apply BitVec.eq_of_getLsbD_eq
  intro j _
  rw [getLsbD_readLane, getLsbD_readLane, getLsbD_replaceLane]
  by_cases h8 : j < 8
  · rw [if_neg (by omega)]
    by_cases hn : m' + j < n
    · rw [decide_eq_true hn, Bool.true_and]
    · rw [BitVec.getLsbD_of_ge v _ (by omega), Bool.and_false]
  · rw [decide_eq_false h8, Bool.false_and, Bool.false_and]

/-- Two different lanes do not overlap. -/
theorem laneShift_disjoint {w : Width} {q r : Nat} (hq : q < w.bits / 8) (hr : r < w.bits / 8) (hne : r ≠ q) :
    laneShift w r + 8 ≤ laneShift w q ∨ laneShift w q + 8 ≤ laneShift w r := by
  rw [laneShift_eq, laneShift_eq]
  omega

/-- Settles O44: the replaced lane reads as the new byte, every other lane as before. -/
theorem byteLaneReadBackAfterReplace : Obligations.ByteLaneReadBackAfterReplace := by
  intro chk w v q r b hq hr
  refine ⟨_, _, answerTo_setByteAt chk hq v b, ?same, answerTo_byteAt chk hr v, fun hne => ?other⟩
  case same =>
    rw [answerTo_byteAt chk hq, setWidth_zext64 (Width.bits_le w), readLane_replaceLane_same, zext64_setWidth]
  case other =>
    have hne' : r.toNat ≠ q.toNat := fun h => hne (BitVec.eq_of_toNat_eq h)
    rw [answerTo_byteAt chk hr, setWidth_zext64 (Width.bits_le w),
      readLane_replaceLane_of_disjoint _ _ (laneShift_disjoint hq hr hne')]

end Sys2Proof.Machine
end

