-- ==== Sys2Proof/Proofs/SwarPopCount.lean ====
section
/-! PROOFS. The SWAR population count (spec/40_bit_primitives.md R64, log entry 13) against the per-bit count of R59. A word is
read as fields of k bits each. Each SWAR step adds neighbouring fields into fields twice as wide, from the 64 one-bit fields of the
value to eight bytes, which the multiplication sums; adding neighbours keeps the sum of all fields. -/

namespace Sys2Proof.Machine

/-! ### Numbers as fields of k bits -/

/-- The number whose n lowest k-bit fields hold f 0, ..., f (n-1). -/
def packed (k : Nat) (f : Nat → Nat) : Nat → Nat
  | 0 => 0
  | n + 1 => packed k f n + f n * 2 ^ (k * n)

/-- The sum of two neighbouring fields. -/
def pairSums (f : Nat → Nat) (i : Nat) : Nat := f (2 * i) + f (2 * i + 1)

theorem pairSums_le {f : Nat → Nat} {b : Nat} (hf : ∀ i, f i ≤ b) (i : Nat) : pairSums f i ≤ 2 * b := by
  have h0 := hf (2 * i)
  have h1 := hf (2 * i + 1)
  rw [pairSums]
  omega

theorem packed_congr {k : Nat} {f g : Nat → Nat} {n : Nat} (h : ∀ i < n, f i = g i) : packed k f n = packed k g n := by
  induction n with
  | zero => rfl
  | succ n ih => rw [packed, packed, ih fun i hi => h i (by omega), h n (by omega)]

theorem packed_lt {k : Nat} {f : Nat → Nat} (hf : ∀ i, f i < 2 ^ k) (n : Nat) : packed k f n < 2 ^ (k * n) := by
  induction n with
  | zero => exact Nat.one_pos
  | succ n ih =>
    calc packed k f (n + 1)
        < 2 ^ (k * n) + f n * 2 ^ (k * n) := Nat.add_lt_add_right ih _
      _ = (f n + 1) * 2 ^ (k * n) := by rw [Nat.add_mul, Nat.one_mul, Nat.add_comm]
      _ ≤ 2 ^ k * 2 ^ (k * n) := Nat.mul_le_mul_right _ (hf n)
      _ = 2 ^ (k * (n + 1)) := by rw [← Nat.pow_add, Nat.mul_add, Nat.mul_one, Nat.add_comm]

theorem packed_add (k : Nat) (f g : Nat → Nat) (n : Nat) :
    packed k f n + packed k g n = packed k (fun i => f i + g i) n := by
  induction n with
  | zero => rfl
  | succ n ih =>
    rw [packed, packed, packed, ← ih, Nat.add_mul]
    omega

/-- The same number in fields twice as wide. -/
theorem packed_two_mul (k : Nat) (f : Nat → Nat) (n : Nat) :
    packed k f (2 * n) = packed (2 * k) (fun i => f (2 * i) + f (2 * i + 1) * 2 ^ k) n := by
  induction n with
  | zero => rfl
  | succ n ih =>
    have hpow : 2 ^ (k * (2 * n + 1)) = 2 ^ k * 2 ^ (2 * k * n) := by rw [← Nat.pow_add]; congr 1; ring
    rw [Nat.mul_succ, packed, packed, packed, ih, hpow, show k * (2 * n) = 2 * k * n by ring]
    ring

/-- With fields of no bits the number is the sum of its fields, and adding neighbours keeps it. -/
theorem packed_zero_pairSums (f : Nat → Nat) (n : Nat) : packed 0 (pairSums f) n = packed 0 f (2 * n) := by
  rw [packed_two_mul]
  exact packed_congr fun i _ => by rw [pairSums, Nat.pow_zero, Nat.mul_one]

/-! ### Shifting and masking fields -/

/-- The fields above the lowest, moved down by one. -/
def fieldsAbove (n : Nat) (f : Nat → Nat) (i : Nat) : Nat := if i + 1 < n then f (i + 1) else 0

theorem packed_eq_lowest_add {k : Nat} (f : Nat → Nat) (n : Nat) :
    packed k f (n + 1) = f 0 + 2 ^ k * packed k (fun i => f (i + 1)) n := by
  induction n with
  | zero => simp [packed]
  | succ n ih =>
    have hpow : 2 ^ (k * (n + 1)) = 2 ^ k * 2 ^ (k * n) := by rw [← Nat.pow_add]; congr 1; ring
    rw [packed, ih, packed, hpow]
    ring

theorem packed_div {k : Nat} {f : Nat → Nat} (hf : ∀ i, f i < 2 ^ k) (n : Nat) :
    packed k f n / 2 ^ k = packed k (fieldsAbove n f) n := by
  cases n with
  | zero => exact Nat.zero_div _
  | succ n =>
    have htop : fieldsAbove (n + 1) f n = 0 := if_neg (by omega)
    rw [packed_eq_lowest_add, Nat.add_mul_div_left _ _ (Nat.two_pow_pos k), Nat.div_eq_of_lt (hf 0), Nat.zero_add,
      packed, htop, Nat.zero_mul, Nat.add_zero]
    exact packed_congr fun i hi => (if_pos (by omega)).symm

/-- Numbers split at bit m are combined by AND part by part. -/
theorem and_add_mul_two_pow {m a c : Nat} (ha : a < 2 ^ m) (hc : c < 2 ^ m) (b d : Nat) :
    (a + b * 2 ^ m) &&& (c + d * 2 ^ m) = (a &&& c) + (b &&& d) * 2 ^ m := by
  have hac : a &&& c < 2 ^ m := Nat.and_lt_two_pow a hc
  have hsplit (x y : Nat) : x + y * 2 ^ m = 2 ^ m * y + x := by ring
  apply Nat.eq_of_testBit_eq
  intro j
  rw [Nat.testBit_and, hsplit, hsplit, hsplit, Nat.testBit_two_pow_mul_add _ ha, Nat.testBit_two_pow_mul_add _ hc,
    Nat.testBit_two_pow_mul_add _ hac, Nat.testBit_and, Nat.testBit_and]
  split <;> rfl

theorem packed_and {k : Nat} {f g : Nat → Nat} (hf : ∀ i, f i < 2 ^ k) (hg : ∀ i, g i < 2 ^ k) (n : Nat) :
    packed k f n &&& packed k g n = packed k (fun i => f i &&& g i) n := by
  induction n with
  | zero => exact Nat.and_self 0
  | succ n ih => rw [packed, packed, packed, and_add_mul_two_pow (packed_lt hf n) (packed_lt hg n), ih]

/-- The mask of every other k-bit field, the lowest first. -/
def evenMask (k n : Nat) : Nat := packed (2 * k) (fun _ => 2 ^ k - 1) n

theorem packed_and_evenMask {k : Nat} {f : Nat → Nat} (hf : ∀ i, f i < 2 ^ k) (n : Nat) :
    packed k f (2 * n) &&& evenMask k n = packed (2 * k) (fun i => f (2 * i)) n := by
  have hpow : 2 ^ (2 * k) = 2 ^ k * 2 ^ k := by rw [← Nat.pow_add]; congr 1; ring
  have hwide (i : Nat) : f (2 * i) + f (2 * i + 1) * 2 ^ k < 2 ^ (2 * k) := by
    have h0 := hf (2 * i)
    have h1 : (f (2 * i + 1) + 1) * 2 ^ k ≤ 2 ^ k * 2 ^ k := Nat.mul_le_mul_right _ (hf (2 * i + 1))
    rw [Nat.add_mul] at h1
    omega
  have hmask (_ : Nat) : 2 ^ k - 1 < 2 ^ (2 * k) :=
    (Nat.sub_one_lt (Nat.two_pow_pos k).ne').trans_le (Nat.pow_le_pow_right Nat.two_pos (by omega))
  rw [packed_two_mul, evenMask, packed_and hwide hmask]
  refine packed_congr fun i _ => ?_
  rw [Nat.and_two_pow_sub_one_eq_mod, Nat.add_mul_mod_self_right, Nat.mod_eq_of_lt (hf _)]

theorem fieldsAbove_even {n i : Nat} (f : Nat → Nat) (hi : i < n) : fieldsAbove (2 * n) f (2 * i) = f (2 * i + 1) :=
  if_pos (by omega)

theorem fieldsAbove_le {n b : Nat} {f : Nat → Nat} (hf : ∀ i, f i ≤ b) (i : Nat) : fieldsAbove n f i ≤ b := by
  unfold fieldsAbove
  split
  · exact hf _
  · exact Nat.zero_le _

theorem packed_div_and_evenMask {k : Nat} {f : Nat → Nat} (hf : ∀ i, f i < 2 ^ k) (n : Nat) :
    packed k f (2 * n) / 2 ^ k &&& evenMask k n = packed (2 * k) (fun i => f (2 * i + 1)) n := by
  have habove (i : Nat) : fieldsAbove (2 * n) f i < 2 ^ k :=
    Nat.lt_of_le_pred (Nat.two_pow_pos k) (fieldsAbove_le (fun i => Nat.le_pred_of_lt (hf i)) i)
  rw [packed_div hf, packed_and_evenMask habove]
  exact packed_congr fun i hi => fieldsAbove_even f hi

/-- Masking, then adding: neighbouring fields are added in fields twice as wide. -/
theorem add_masked_eq_pairSums {k : Nat} {f : Nat → Nat} (hf : ∀ i, f i < 2 ^ k) (n : Nat) :
    (packed k f (2 * n) &&& evenMask k n) + (packed k f (2 * n) / 2 ^ k &&& evenMask k n) =
      packed (2 * k) (pairSums f) n := by
  rw [packed_and_evenMask hf, packed_div_and_evenMask hf, packed_add]
  rfl

/-- Adding, then masking: the same, when the sum of two fields fits in a field. -/
theorem masked_add_eq_pairSums {k b : Nat} {f : Nat → Nat} (hf : ∀ i, f i ≤ b) (hb : 2 * b < 2 ^ k) (n : Nat) :
    (packed k f (2 * n) + packed k f (2 * n) / 2 ^ k) &&& evenMask k n = packed (2 * k) (pairSums f) n := by
  have hfield (i : Nat) : f i < 2 ^ k := (hf i).trans_lt (by omega)
  have hsum (i : Nat) : f i + fieldsAbove (2 * n) f i < 2 ^ k := by
    have h0 := hf i
    have h1 : fieldsAbove (2 * n) f i ≤ b := fieldsAbove_le hf i
    omega
  rw [packed_div hfield, packed_add, packed_and_evenMask hsum]
  exact packed_congr fun i hi => by rw [fieldsAbove_even f hi, pairSums]

/-- Two bits weigh their sum and once more the upper bit: what the first SWAR step subtracts. -/
theorem packed_one_eq_pairSums_add (f : Nat → Nat) (n : Nat) :
    packed 1 f (2 * n) = packed 2 (pairSums f) n + packed 2 (fun i => f (2 * i + 1)) n := by
  rw [packed_add, packed_two_mul]
  exact packed_congr fun i _ => by rw [pairSums]; omega

/-! ### The steps of the SWAR form -/

/-- A bit as a number. -/
def bitField {n : Nat} (v : BitVec n) (i : Nat) : Nat := (v.getLsbD i).toNat

theorem bitField_le {n : Nat} (v : BitVec n) (i : Nat) : bitField v i ≤ 1 := Bool.toNat_le _

/-- A value is its one-bit fields. -/
theorem packed_bitField {n : Nat} (v : BitVec n) (i : Nat) : packed 1 (bitField v) i = v.toNat % 2 ^ i := by
  induction i with
  | zero => rw [packed, Nat.pow_zero, Nat.mod_one]
  | succ i ih =>
    rw [packed, ih, Nat.one_mul, Nat.mod_pow_succ, bitField, ← BitVec.testBit_toNat, Nat.toNat_testBit, Nat.mul_comm]

/-- The per-bit count is the sum of the one-bit fields (R59). -/
theorem countOnes_eq_packed {n : Nat} (v : BitVec n) (i : Nat) : countOnes i v = packed 0 (bitField v) i := by
  induction i with
  | zero => rfl
  | succ i ih => rw [countOnes, packed, ih, Nat.zero_mul, Nat.pow_zero, Nat.mul_one, bitField]

/-- Byte k of the product with 0x01...01, for k below 7: the sum of the bytes 0 to k. -/
def lowerSums (g : Nat → Nat) (k : Nat) : Nat := packed 0 g (min k 6 + 1)

/-- Byte 8 + k of that product, for k below 7: the sum of the bytes k + 1 to 7. -/
def upperSums (g : Nat → Nat) (k : Nat) : Nat := packed 0 (fun i => g (k + 1 + i)) (7 - k)

/-- Multiplying by 0x01...01 sums the eight bytes in the top byte: below it stand the sums of the lower bytes, which fit in a
byte each, and what stands above it falls away. -/
theorem sum_bytes {g : Nat → Nat} (hg : ∀ i, g i ≤ 8) :
    packed 8 g 8 * 0x0101010101010101 % 2 ^ 64 / 2 ^ 56 = packed 0 g 8 := by
  have hsum (n : Nat) : packed 0 g n ≤ 8 * n := by
    induction n with
    | zero => exact Nat.le_refl _
    | succ n ih =>
      have hn := hg n
      rw [packed, Nat.zero_mul, Nat.pow_zero, Nat.mul_one]
      omega
  have hlow : packed 8 (lowerSums g) 7 < 2 ^ 56 :=
    packed_lt (fun k => (hsum (min k 6 + 1)).trans_lt (by omega)) 7
  have hproduct : packed 8 g 8 * 0x0101010101010101 =
      packed 8 (lowerSums g) 7 + 2 ^ 56 * (packed 0 g 8 + 2 ^ 8 * packed 8 (upperSums g) 7) := by
    norm_num [packed, lowerSums, upperSums]
    ring
  have htop : packed 0 g 8 < 2 ^ 8 := (hsum 8).trans_lt (by decide)
  rw [hproduct, show 2 ^ 64 = 2 ^ 56 * 2 ^ 8 from rfl, Nat.mod_mul_right_div_self,
    Nat.add_mul_div_left _ _ (Nat.two_pow_pos 56), Nat.div_eq_of_lt hlow, Nat.zero_add, Nat.add_mul_mod_self_left,
    Nat.mod_eq_of_lt htop]

theorem toNat_and_mask {x : Word} {m : Nat} (hm : m < 2 ^ 64) :
    (x &&& BitVec.ofNat 64 m).toNat = x.toNat &&& m := by
  rw [BitVec.toNat_and, BitVec.toNat_ofNat, Nat.mod_eq_of_lt hm]

theorem toNat_ushiftRight_eq_div (x : Word) (k : Nat) : (x >>> k).toNat = x.toNat / 2 ^ k := by
  rw [BitVec.toNat_ushiftRight, Nat.shiftRight_eq_div_pow]

/-- From 64 bits to 32 sums of two. -/
theorem swar_pairs (v : Word) :
    (v - ((v >>> 1) &&& 0x5555555555555555#64)).toNat = packed 2 (pairSums (bitField v)) 32 := by
  have hv : v.toNat = packed 1 (bitField v) (2 * 32) := by
    rw [packed_bitField, Nat.mod_eq_of_lt v.isLt]
  have hupper : ((v >>> 1) &&& 0x5555555555555555#64).toNat = packed 2 (fun i => bitField v (2 * i + 1)) 32 := by
    rw [toNat_and_mask (by decide), toNat_ushiftRight_eq_div, hv]
    exact packed_div_and_evenMask (fun i => Nat.lt_succ_of_le (bitField_le v i)) 32
  rw [packed_one_eq_pairSums_add] at hv
  rw [BitVec.toNat_sub_of_le (by rw [BitVec.le_def]; omega), hupper, hv, Nat.add_sub_cancel]

/-- From 32 sums of two to 16 sums of four. -/
theorem swar_nibbles {x : Word} {f : Nat → Nat} (hf : ∀ i, f i ≤ 2) (hx : x.toNat = packed 2 f 32) :
    ((x &&& 0x3333333333333333#64) + ((x >>> 2) &&& 0x3333333333333333#64)).toNat = packed 4 (pairSums f) 16 := by
  have hsum : (x.toNat &&& 0x3333333333333333) + (x.toNat / 2 ^ 2 &&& 0x3333333333333333) =
      packed 4 (pairSums f) 16 :=
    hx ▸ add_masked_eq_pairSums (fun i => Nat.lt_of_le_of_lt (hf i) (by decide)) 16
  have hlt : packed 4 (pairSums f) 16 < 2 ^ 64 :=
    packed_lt (fun i => Nat.lt_of_le_of_lt (pairSums_le hf i) (by decide)) 16
  rw [BitVec.toNat_add, toNat_and_mask (by decide), toNat_and_mask (by decide), toNat_ushiftRight_eq_div, hsum,
    Nat.mod_eq_of_lt hlt]

/-- From 16 sums of four to 8 sums of eight. -/
theorem swar_bytes {x : Word} {f : Nat → Nat} (hf : ∀ i, f i ≤ 4) (hx : x.toNat = packed 4 f 16) :
    ((x + (x >>> 4)) &&& 0x0F0F0F0F0F0F0F0F#64).toNat = packed 8 (pairSums f) 8 := by
  have hsum : (x.toNat + x.toNat / 2 ^ 4) &&& 0x0F0F0F0F0F0F0F0F = packed 8 (pairSums f) 8 :=
    hx ▸ masked_add_eq_pairSums hf (by decide) 8
  have hlt : packed 8 (pairSums f) 8 < 2 ^ 64 :=
    packed_lt (fun i => Nat.lt_of_le_of_lt (pairSums_le hf i) (by decide)) 8
  rw [BitVec.toNat_and, BitVec.toNat_add, toNat_ushiftRight_eq_div, BitVec.toNat_ofNat, ← Nat.and_mod_two_pow, hsum,
    Nat.mod_eq_of_lt hlt]

/-- From 8 sums of eight to the count. -/
theorem swar_total {x : Word} {f : Nat → Nat} (hf : ∀ i, f i ≤ 8) (hx : x.toNat = packed 8 f 8) :
    ((x * 0x0101010101010101#64) >>> 56).toNat = packed 0 f 8 := by
  rw [toNat_ushiftRight_eq_div, BitVec.toNat_mul, hx]
  exact sum_bytes hf

/-- The four steps in turn; the sum of all fields is the same at every width. -/
theorem swarPopCount_eq (v : Word) : swarPopCount v = BitVec.ofNat 64 (popCount v) := by
  have hpairs := pairSums_le (bitField_le v)
  have hnibbles := pairSums_le hpairs
  have hbytes := pairSums_le hnibbles
  apply BitVec.eq_of_toNat_eq
  calc (swarPopCount v).toNat
      = packed 0 (pairSums (pairSums (pairSums (bitField v)))) 8 :=
        swar_total hbytes (swar_bytes hnibbles (swar_nibbles hpairs (swar_pairs v)))
    _ = packed 0 (bitField v) 64 := by rw [packed_zero_pairSums, packed_zero_pairSums, packed_zero_pairSums]
    _ = popCount v := (countOnes_eq_packed v 64).symm
    _ = (BitVec.ofNat 64 (popCount v)).toNat := (toNat_ofNat_popCount .w64 v).symm

/-- Extending a value to a wider word adds no 1 bit. -/
theorem popCount_setWidth {n m : Nat} (h : n ≤ m) (v : BitVec n) : popCount (v.setWidth m) = popCount v := by
  have hbits : (Finset.range m).filter (fun j => (v.setWidth m).getLsbD j = true) =
      (Finset.range n).filter (fun j => v.getLsbD j = true) := by
    ext j
    rw [Finset.mem_filter, Finset.mem_filter, Finset.mem_range, Finset.mem_range, BitVec.getLsbD_setWidth]
    constructor
    · rintro ⟨_, hj⟩
      have hbit : v.getLsbD j = true := (Bool.and_eq_true_iff.mp hj).2
      exact ⟨BitVec.lt_of_getLsbD hbit, hbit⟩
    · rintro ⟨hj, hbit⟩
      simp [hbit, show j < m by omega]
  rw [popCount, popCount, countOnes_eq_card, countOnes_eq_card, hbits]

/-- Settles O45: the 64-bit form counts the extended value, which has the 1 bits of the value itself. -/
theorem swarPopCountEqualsThePerBitCount : Obligations.SwarPopCountEqualsThePerBitCount := by
  intro w v
  rw [swarPopCount_eq, popCount_setWidth (Width.bits_le w)]

end Sys2Proof.Machine
end

