-- ==== Sys2Proof/Proofs/SpreadGather.lean ====
section
/-! PROOFS. The key layout and the spreading and gathering of coordinates (spec/41_morton_codec.md sections 1 and 2). The shift
ladders of R72 and R73 and the functions they stand for are all linear over XOR, so they agree if they agree on the 32 single bits. -/

namespace Sys2Proof.Machine

/-! ### The axis masks (R67) -/

theorem getLsbD_axisMask (a : Axis) (j : Nat) :
    (axisMask a).getLsbD j = (decide (j < 30) && decide (j % 3 = slot a)) := by
  by_cases hj : j < 32
  · revert j
    cases a <;> decide
  · rw [BitVec.getLsbD_of_ge _ _ (by omega), decide_eq_false (by omega), Bool.false_and]

/-- Settles O46: the bits of the masks are `getLsbD_axisMask`; the rest are facts about constants. -/
theorem axisMasksPartitionTheUsedBits : Obligations.AxisMasksPartitionTheUsedBits := by
  refine ⟨getLsbD_axisMask, by decide, by decide, fun a => ?_, by decide, by decide, by decide, by decide, fun a => ?_⟩
  · cases a <;> decide
  · cases a <;> decide

/-! ### Spread10 and Gather10 -/

theorem toNat_gather10_spread10 (n : Key) : (gather10 (spread10 n)).toNat = n.toNat % 1024 := by
  apply Nat.eq_of_testBit_eq
  intro j
  rw [BitVec.testBit_toNat, getLsbD_gather10, getLsbD_spread10, show 1024 = 2 ^ 10 from rfl,
    Nat.testBit_mod_two_pow, BitVec.testBit_toNat]
  by_cases hj : j < 10
  · simp [hj, show 3 * j < 30 by omega]
  · simp [hj]

theorem spread10_gather10 (n : Key) : spread10 (gather10 n) = n &&& axisMask .x := by
  apply BitVec.eq_of_getLsbD_eq
  intro j _
  rw [getLsbD_spread10, getLsbD_gather10, BitVec.getLsbD_and, getLsbD_axisMask, slot]
  by_cases hj : j < 30 ∧ j % 3 = 0
  · obtain ⟨hj, h3⟩ := hj
    simp [hj, h3, show j / 3 < 10 by omega, show 3 * (j / 3) = j by omega]
  · rw [← Bool.decide_and, decide_eq_false hj, Bool.false_and, Bool.and_false]

/-- Settles O47: bit i goes to slot i and back; a slot goes to bit i and back, every other bit is lost. -/
theorem spreadAndGatherAreInverse : Obligations.SpreadAndGatherAreInverse :=
  fun n => ⟨toNat_gather10_spread10 n, spread10_gather10 n⟩

/-! ### Functions linear over XOR -/

/-- A function on keys that takes XOR to XOR. -/
def XorLinear (f : Key → Key) : Prop := ∀ a b, f (a ^^^ b) = f a ^^^ f b

theorem XorLinear.map_zero {f : Key → Key} (hf : XorLinear f) : f 0 = 0 := by
  have h := hf 0 0
  rwa [BitVec.xor_self, BitVec.xor_self] at h

/-- The i lowest bits of a key. -/
def lowBits (i : Nat) (n : Key) : Key := (n.setWidth i).setWidth 32

theorem getLsbD_lowBits (i : Nat) (n : Key) (j : Nat) :
    (lowBits i n).getLsbD j = (decide (j < 32) && (decide (j < i) && n.getLsbD j)) := by
  rw [lowBits, BitVec.getLsbD_setWidth, BitVec.getLsbD_setWidth]

theorem lowBits_succ (i : Nat) (n : Key) :
    lowBits (i + 1) n = lowBits i n ^^^ (if n.getLsbD i then 1#32 <<< i else 0) := by
  apply BitVec.eq_of_getLsbD_eq
  intro j hj
  rw [BitVec.getLsbD_xor, getLsbD_lowBits, getLsbD_lowBits, decide_eq_true hj, Bool.true_and, Bool.true_and]
  have hone : (if n.getLsbD i then 1#32 <<< i else 0#32).getLsbD j = (decide (j = i) && n.getLsbD j) := by
    split
    case isTrue h =>
      rw [getLsbD_one_shift, decide_eq_true hj, Bool.true_and]
      by_cases hji : j = i
      · simp [hji, h]
      · simp [hji]
    case isFalse h =>
      by_cases hji : j = i
      · simp [hji, h]
      · simp [hji]
  refine Eq.trans ?_ (congrArg _ hone.symm)
  rcases Nat.lt_trichotomy j i with h | rfl | h
  · simp [h, show j < i + 1 by omega, Nat.ne_of_lt h]
  · simp
  · simp [show ¬ j < i + 1 by omega, show ¬ j < i by omega, Nat.ne_of_gt h]

/-- Two linear functions that agree on the single bits agree on every key, which is the XOR of its single bits. -/
theorem XorLinear.eq_of_single_bits {f g : Key → Key} (hf : XorLinear f) (hg : XorLinear g)
    (h : ∀ i < 32, f (1#32 <<< i) = g (1#32 <<< i)) (n : Key) : f n = g n := by
  have hlow (i : Nat) (hi : i ≤ 32) : f (lowBits i n) = g (lowBits i n) := by
    induction i with
    | zero =>
      have hnone : lowBits 0 n = 0 := by rw [lowBits, BitVec.eq_nil (n.setWidth 0)]; rfl
      rw [hnone, hf.map_zero, hg.map_zero]
    | succ i ih =>
      rw [lowBits_succ, hf, hg, ih (by omega)]
      congr 1
      split
      · exact h i (by omega)
      · exact hf.map_zero.trans hg.map_zero.symm
  have hn : lowBits 32 n = n := by rw [lowBits, BitVec.setWidth_eq, BitVec.setWidth_eq]
  exact hn ▸ hlow 32 (Nat.le_refl _)

theorem XorLinear.comp {f g : Key → Key} (hf : XorLinear f) (hg : XorLinear g) : XorLinear fun n => f (g n) :=
  fun a b => (congrArg f (hg a b)).trans (hf (g a) (g b))

theorem xorLinear_and (m : Key) : XorLinear (· &&& m) := by
  intro a b
  apply BitVec.eq_of_getLsbD_eq
  intro j _
  simp only [BitVec.getLsbD_and, BitVec.getLsbD_xor, Bool.and_xor_distrib_right]

/-- One step of a ladder: a shift, an XOR with the unshifted key, a mask. -/
theorem xorLinear_ladderStep {shift : Key → Key} (hs : XorLinear shift) (m : Key) :
    XorLinear fun n => (n ^^^ shift n) &&& m := by
  refine (xorLinear_and m).comp fun a b => ?_
  rw [hs]
  ac_rfl

theorem xorLinear_shiftLeft (k : Nat) : XorLinear (· <<< k) := fun a b => BitVec.shiftLeft_xor_distrib a b k

theorem xorLinear_ushiftRight (k : Nat) : XorLinear (· >>> k) := fun a b => BitVec.ushiftRight_xor_distrib a b k

theorem xorLinear_spreadLadder : XorLinear spreadLadder :=
  ((((xorLinear_ladderStep (xorLinear_shiftLeft 2) 0x09249249#32).comp
    (xorLinear_ladderStep (xorLinear_shiftLeft 4) 0x030C30C3#32)).comp
    (xorLinear_ladderStep (xorLinear_shiftLeft 8) 0x0300F00F#32)).comp
    (xorLinear_ladderStep (xorLinear_shiftLeft 16) 0xFF0000FF#32)).comp (xorLinear_and 0x000003FF#32)

theorem xorLinear_gatherLadder : XorLinear gatherLadder :=
  ((((xorLinear_ladderStep (xorLinear_ushiftRight 16) 0x000003FF#32).comp
    (xorLinear_ladderStep (xorLinear_ushiftRight 8) 0xFF0000FF#32)).comp
    (xorLinear_ladderStep (xorLinear_ushiftRight 4) 0x0300F00F#32)).comp
    (xorLinear_ladderStep (xorLinear_ushiftRight 2) 0x030C30C3#32)).comp (xorLinear_and 0x09249249#32)

/-- A function each of whose bits is one bit of its operand, or 0, is linear. -/
theorem xorLinear_of_bits {f : Key → Key} (p : Nat → Bool) (src : Nat → Nat)
    (hf : ∀ n j, (f n).getLsbD j = (p j && n.getLsbD (src j))) : XorLinear f := by
  intro a b
  apply BitVec.eq_of_getLsbD_eq
  intro j _
  rw [BitVec.getLsbD_xor, hf, hf, hf, BitVec.getLsbD_xor, Bool.and_xor_distrib_left]

/-- Settles O48: the ladder and `Spread10` are linear and agree on the 32 single bits. -/
theorem encoderLadderEqualsSpread10 : Obligations.EncoderLadderEqualsSpread10 :=
  xorLinear_spreadLadder.eq_of_single_bits (xorLinear_of_bits _ _ getLsbD_spread10) (by decide)

/-- Settles O49: the ladder and `Gather10` are linear and agree on the 32 single bits. -/
theorem decoderLadderEqualsGather10 : Obligations.DecoderLadderEqualsGather10 :=
  xorLinear_gatherLadder.eq_of_single_bits (xorLinear_of_bits _ _ getLsbD_gather10) (by decide)

end Sys2Proof.Machine
end

