-- ==== Sys2Proof/Proofs/KeyCoordinates.lean ====
section
/-! PROOFS. A key as three coordinates and two unused bits (spec/41_morton_codec.md R71, R77). The masked adders of the step and
key arithmetic commands (spec/42_morton_step.md R80, R81, spec/43_morton_keyarith.md R100, R101) are adders of coordinates: between
two slots of an axis the operands differ in every bit, so the carry passes through unchanged. -/

namespace Sys2Proof.Machine

/-! ### Coordinates as numbers -/

theorem sum_range_eq_packed (f : Nat → Nat) (n : Nat) : ∑ i ∈ Finset.range n, f i * 2 ^ i = packed 1 f n := by
  induction n with
  | zero => rfl
  | succ n ih => rw [Finset.sum_range_succ, packed, ih, Nat.one_mul]

/-- If the slots of an axis hold the ten low bits of a value, the coordinate is that value modulo 1024. -/
theorem coord_of_slot_bits {a : Axis} {key : Key} {v : Key}
    (h : ∀ i < 10, key.getLsbD (3 * i + slot a) = v.getLsbD i) : coord a key = v.toNat % 1024 := by
  rw [coord, sum_range_eq_packed (fun i => (key.getLsbD (3 * i + slot a)).toNat)]
  exact (packed_congr fun i hi => congrArg Bool.toNat (h i hi)).trans (packed_bitField v 10)

/-- The coordinate of an axis is the one the decoder gathers (R75). -/
theorem coord_eq_toNat_decodeAxis (a : Axis) (key : Key) : coord a key = (decodeAxis key a).toNat := by
  have hlt : (decodeAxis key a).toNat < 1024 := toNat_decodeAxis_lt key a
  rw [coord_of_slot_bits (v := decodeAxis key a), Nat.mod_eq_of_lt hlt]
  intro i hi
  rw [getLsbD_decodeAxis_slot, decide_eq_true hi, Bool.true_and]

theorem coord_lt (a : Axis) (key : Key) : coord a key < 1024 := by
  rw [coord_eq_toNat_decodeAxis]
  exact toNat_decodeAxis_lt key a

/-- A coordinate depends on the slots of its axis only. -/
theorem coord_congr {a : Axis} {k k' : Key} (h : ∀ i < 10, k.getLsbD (3 * i + slot a) = k'.getLsbD (3 * i + slot a)) :
    coord a k = coord a k' :=
  Finset.sum_congr rfl fun i hi => by rw [h i (Finset.mem_range.mp hi)]

theorem coord_encodeKey (c : Axis → Key) (a : Axis) :
    coord a (encodeKey (c .x) (c .y) (c .z)) = (c a).toNat % 1024 :=
  coord_of_slot_bits fun _ hi => getLsbD_encodeKey_slot c a hi

/-- Every bit below 30 is a slot of an axis. -/
theorem exists_slot {j : Nat} (hj : j < 30) : ∃ (a : Axis) (i : Nat), i < 10 ∧ j = 3 * i + slot a := by
  have h3 : j % 3 = 0 ∨ j % 3 = 1 ∨ j % 3 = 2 := by omega
  rcases h3 with h | h | h
  · exact ⟨.x, j / 3, by omega, by rw [slot]; omega⟩
  · exact ⟨.y, j / 3, by omega, by rw [slot]; omega⟩
  · exact ⟨.z, j / 3, by omega, by rw [slot]; omega⟩

/-- A key is its three coordinates and bits 31:30. -/
theorem key_ext {k k' : Key} (hcoord : ∀ a, coord a k = coord a k')
    (hunused : ∀ j, j = 30 ∨ j = 31 → k.getLsbD j = k'.getLsbD j) : k = k' := by
  apply BitVec.eq_of_getLsbD_eq
  intro j hj
  by_cases h : j < 30
  · obtain ⟨a, i, hi, rfl⟩ := exists_slot h
    have hdecoded : decodeAxis k a = decodeAxis k' a := by
      apply BitVec.eq_of_toNat_eq
      rw [← coord_eq_toNat_decodeAxis, ← coord_eq_toNat_decodeAxis, hcoord]
    have hbit := congrArg (fun v => BitVec.getLsbD v i) hdecoded
    simpa only [getLsbD_decodeAxis_slot, decide_eq_true hi, Bool.true_and] using hbit
  · exact hunused j (by omega)

theorem slot_injective {a b : Axis} (h : slot a = slot b) : a = b := by
  revert h
  cases a <;> cases b <;> decide

theorem getLsbD_axisMask_slot (a b : Axis) {i : Nat} (hi : i < 10) :
    (axisMask a).getLsbD (3 * i + slot b) = decide (b = a) := by
  have hb : slot b < 3 := slot_lt b
  rw [getLsbD_axisMask, decide_eq_true (by omega), Bool.true_and, decide_eq_decide]
  constructor
  · exact fun h => slot_injective (by omega)
  · rintro rfl
    omega

/-! ### The carry between the slots of an axis -/

/-- A carry into bit 0, as a key. -/
def carryIn (c : Bool) : Key := (BitVec.ofBool c).setWidth 32

/-- Where the operands differ the carry passes through. -/
theorem carry_succ_of_ne {X Y : Key} {c : Bool} {j : Nat} (h : Y.getLsbD j = !X.getLsbD j) :
    BitVec.carry (j + 1) X Y c = BitVec.carry j X Y c := by
  rw [BitVec.carry_succ, h]
  cases X.getLsbD j <;> cases BitVec.carry j X Y c <;> rfl

/-- The operands of a masked adder: in the slots of an axis they hold the values x and y, elsewhere below bit 30 they differ. -/
structure SlotOperands (a : Axis) (X Y x y : Key) : Prop where
  left : ∀ i < 10, X.getLsbD (3 * i + slot a) = x.getLsbD i
  right : ∀ i < 10, Y.getLsbD (3 * i + slot a) = y.getLsbD i
  between : ∀ j < 30, j % 3 ≠ slot a → Y.getLsbD j = !X.getLsbD j

/-- The carry into a slot is the carry into that bit of the coordinate sum. -/
theorem SlotOperands.carry_eq {a : Axis} {X Y x y : Key} (h : SlotOperands a X Y x y) (c : Bool) {i : Nat} (hi : i < 10) :
    BitVec.carry (3 * i + slot a) X Y c = BitVec.carry i x y c := by
  have ha : slot a < 3 := slot_lt a
  have hpass {j : Nat} (hj : j < 30) (hslot : j % 3 ≠ slot a) :
      BitVec.carry (j + 1) X Y c = BitVec.carry j X Y c := carry_succ_of_ne (h.between j hj hslot)
  induction i with
  | zero =>
    have hbelow (j : Nat) (hj : j ≤ slot a) : BitVec.carry j X Y c = c := by
      induction j with
      | zero => exact BitVec.carry_zero
      | succ j ih => rw [hpass (by omega) (by omega), ih (by omega)]
    rw [Nat.mul_zero, Nat.zero_add, hbelow _ (Nat.le_refl _), BitVec.carry_zero]
  | succ i ih =>
    calc BitVec.carry (3 * (i + 1) + slot a) X Y c
        = BitVec.carry (3 * i + slot a + 1 + 1 + 1) X Y c := by congr 1; omega
      _ = BitVec.carry (3 * i + slot a + 1) X Y c := by rw [hpass (by omega) (by omega), hpass (by omega) (by omega)]
      _ = BitVec.carry (i + 1) x y c := by
        rw [BitVec.carry_succ, BitVec.carry_succ, h.left i (by omega), h.right i (by omega), ih (by omega)]

/-- So the sum shows in the slots the sum of the values. -/
theorem SlotOperands.getLsbD_sum {a : Axis} {X Y x y : Key} (h : SlotOperands a X Y x y) (c : Bool) {i : Nat}
    (hi : i < 10) : (X + Y + carryIn c).getLsbD (3 * i + slot a) = (x + y + carryIn c).getLsbD i := by
  have ha : slot a < 3 := slot_lt a
  rw [carryIn, BitVec.getLsbD_add_add_bool (by omega), BitVec.getLsbD_add_add_bool (by omega), h.left i hi, h.right i hi,
    h.carry_eq c hi]

/-- A bit of an axis mask: 1 in the slots of the axis, 0 below bit 30 elsewhere. -/
theorem getLsbD_axisMask_between {a : Axis} {j : Nat} (h : j % 3 ≠ slot a) : (axisMask a).getLsbD j = false := by
  rw [getLsbD_axisMask, decide_eq_false h, Bool.and_false]

section Operands

variable (a b : Key) (ax : Axis)

/-- R100: outside the slots one operand is all ones, the other all zeros. -/
theorem addAxis_operands :
    SlotOperands ax (a ||| ~~~axisMask ax) (b &&& axisMask ax) (decodeAxis a ax) (decodeAxis b ax) where
  left i hi := by
    rw [BitVec.getLsbD_or, BitVec.getLsbD_not, getLsbD_axisMask_slot ax ax hi, getLsbD_decodeAxis_slot]
    simp [hi]
  right i hi := by
    rw [BitVec.getLsbD_and, getLsbD_axisMask_slot ax ax hi, getLsbD_decodeAxis_slot]
    simp [hi]
  between j hj hslot := by
    rw [BitVec.getLsbD_or, BitVec.getLsbD_not, BitVec.getLsbD_and, getLsbD_axisMask_between hslot,
      decide_eq_true (by omega)]
    simp

/-- R101: outside the slots both operands are zeros, so the complement of the second is all ones. -/
theorem subAxis_operands :
    SlotOperands ax (a &&& axisMask ax) (~~~(b &&& axisMask ax)) (decodeAxis a ax) (~~~decodeAxis b ax) where
  left i hi := by
    rw [BitVec.getLsbD_and, getLsbD_axisMask_slot ax ax hi, getLsbD_decodeAxis_slot]
    simp [hi]
  right i hi := by
    have hax : slot ax < 3 := slot_lt ax
    rw [BitVec.getLsbD_not, BitVec.getLsbD_and, getLsbD_axisMask_slot ax ax hi, BitVec.getLsbD_not,
      getLsbD_decodeAxis_slot]
    simp [hi, show i < 32 by omega, show 3 * i + slot ax < 32 by omega]
  between j hj hslot := by
    rw [BitVec.getLsbD_not, BitVec.getLsbD_and, BitVec.getLsbD_and, getLsbD_axisMask_between hslot,
      decide_eq_true (by omega)]
    simp

end Operands

/-- Subtraction is addition of the complement with a carry in. -/
theorem sub_eq_add_not_carry (u v : Key) : u - v = u + ~~~v + carryIn true := by
  rw [BitVec.sub_eq_add_neg, BitVec.neg_eq_not_add, BitVec.add_assoc]
  rfl

theorem getLsbD_addAxis_slot (a b : Key) (ax : Axis) {i : Nat} (hi : i < 10) :
    (addAxis a b ax).getLsbD (3 * i + slot ax) = (decodeAxis a ax + decodeAxis b ax).getLsbD i := by
  have hsum := (addAxis_operands a b ax).getLsbD_sum false hi
  rw [show carryIn false = 0#32 from rfl, BitVec.add_zero, BitVec.add_zero] at hsum
  rw [addAxis, BitVec.getLsbD_and, getLsbD_axisMask_slot ax ax hi, hsum, decide_eq_true rfl, Bool.and_true]

theorem getLsbD_subAxis_slot (a b : Key) (ax : Axis) {i : Nat} (hi : i < 10) :
    (subAxis a b ax).getLsbD (3 * i + slot ax) = (decodeAxis a ax - decodeAxis b ax).getLsbD i := by
  have hsum := (subAxis_operands a b ax).getLsbD_sum true hi
  rw [← sub_eq_add_not_carry, ← sub_eq_add_not_carry] at hsum
  rw [subAxis, BitVec.getLsbD_and, getLsbD_axisMask_slot ax ax hi, hsum, decide_eq_true rfl, Bool.and_true]

/-- One axis of KADD adds the coordinates modulo 1024 (R100). -/
theorem coord_addAxis (a b : Key) (ax : Axis) : coord ax (addAxis a b ax) = (coord ax a + coord ax b) % 1024 := by
  have ha := coord_lt ax a
  have hb := coord_lt ax b
  rw [coord_of_slot_bits fun i hi => getLsbD_addAxis_slot a b ax hi, BitVec.toNat_add, ← coord_eq_toNat_decodeAxis,
    ← coord_eq_toNat_decodeAxis]
  omega

/-- One axis of KSUB subtracts the coordinates modulo 1024 (R101). -/
theorem coord_subAxis (a b : Key) (ax : Axis) :
    coord ax (subAxis a b ax) = (coord ax a + 1024 - coord ax b) % 1024 := by
  have ha := coord_lt ax a
  have hb := coord_lt ax b
  rw [coord_of_slot_bits fun i hi => getLsbD_subAxis_slot a b ax hi, BitVec.toNat_sub, ← coord_eq_toNat_decodeAxis,
    ← coord_eq_toNat_decodeAxis]
  omega

/-! ### Whole keys -/

/-- The unused bits are no axis's slots (R67). -/
theorem getLsbD_unusedMask_of_lt {j : Nat} (hj : j < 30) : unusedMask.getLsbD j = false := by
  revert j
  decide

/-- Of an OR of three values, each within its own axis's slots, a slot shows the value of its axis. -/
theorem getLsbD_or_of_axes {part : Axis → Key}
    (hout : ∀ a j, (axisMask a).getLsbD j = false → (part a).getLsbD j = false) (ax : Axis) {i : Nat} (hi : i < 10) :
    (part .x ||| part .y ||| part .z).getLsbD (3 * i + slot ax) = (part ax).getLsbD (3 * i + slot ax) := by
  have hother {b : Axis} (hb : ax ≠ b) : (part b).getLsbD (3 * i + slot ax) = false :=
    hout b _ (by rw [getLsbD_axisMask_slot b ax hi, decide_eq_false hb])
  rw [BitVec.getLsbD_or, BitVec.getLsbD_or]
  cases ax with
  | x => rw [hother (b := .y) (by decide), hother (b := .z) (by decide), Bool.or_false, Bool.or_false]
  | y => rw [hother (b := .x) (by decide), hother (b := .z) (by decide), Bool.or_false, Bool.false_or]
  | z => rw [hother (b := .x) (by decide), hother (b := .y) (by decide), Bool.or_false, Bool.false_or]

/-- With unused bits beside it, the OR shows as coordinates those of its three values. -/
theorem coord_or_of_axes {part : Axis → Key}
    (hout : ∀ a j, (axisMask a).getLsbD j = false → (part a).getLsbD j = false) (u : Key) (ax : Axis) :
    coord ax (part .x ||| part .y ||| part .z ||| (u &&& unusedMask)) = coord ax (part ax) := by
  refine coord_congr fun i hi => ?_
  have hslot : slot ax < 3 := slot_lt ax
  rw [BitVec.getLsbD_or, getLsbD_or_of_axes hout ax hi, BitVec.getLsbD_and, getLsbD_unusedMask_of_lt (by omega),
    Bool.and_false, Bool.or_false]

/-- KADD adds on every axis (R100). -/
theorem coord_addKeys (a b : Key) (ax : Axis) : coord ax (addKeys a b) = (coord ax a + coord ax b) % 1024 :=
  (coord_or_of_axes (part := addAxis a b) (fun ax j => getLsbD_addAxis_outside a b ax j) a ax).trans (coord_addAxis a b ax)

/-- KSUB subtracts on every axis (R101). -/
theorem coord_subKeys (a b : Key) (ax : Axis) :
    coord ax (subKeys a b) = (coord ax a + 1024 - coord ax b) % 1024 :=
  (coord_or_of_axes (part := subAxis a b) (fun ax j => getLsbD_subAxis_outside a b ax j) a ax).trans (coord_subAxis a b ax)

/-! ### The axis engines -/

theorem axisStep_and_axisMask (a : Axis) : axisStep a &&& axisMask a = axisStep a := by
  cases a <;> decide

theorem coord_axisStep (a : Axis) : coord a (axisStep a) = 1 := by
  cases a <;> decide

/-- The engine's part of its own axis is KADD or KSUB of the axis step. -/
theorem coord_stepPart (d : Dir) (key : Key) (a : Axis) :
    coord a (stepPart d key a) = steppedCoord d true (coord a key) := by
  cases d with
  | inc =>
    have hpart : stepPart .inc key a = addAxis key (axisStep a) a := by
      rw [stepPart, addAxis, axisStep_and_axisMask]
    rw [hpart, coord_addAxis, coord_axisStep, steppedCoord]
  | dec =>
    have hpart : stepPart .dec key a = subAxis key (axisStep a) a := by
      rw [stepPart, subAxis, axisStep_and_axisMask]
    rw [hpart, coord_subAxis, coord_axisStep, steppedCoord]
    rfl

theorem engine_eq_stepPart_or (d : Dir) (key : Key) (a : Axis) :
    engine d key a = stepPart d key a ||| (key &&& ~~~axisMask a) := by
  cases d <;> rfl

/-- In the slots of its axis the engine shows its part of the parallel form. -/
theorem getLsbD_engine_slot (d : Dir) (key : Key) (a : Axis) {i : Nat} (hi : i < 10) :
    (engine d key a).getLsbD (3 * i + slot a) = (stepPart d key a).getLsbD (3 * i + slot a) := by
  rw [engine_eq_stepPart_or, BitVec.getLsbD_or, BitVec.getLsbD_and, BitVec.getLsbD_not, getLsbD_axisMask_slot a a hi]
  simp

/-- The engine steps its own axis modulo 1024 and no other (R80, R81). -/
theorem coord_engine (d : Dir) (key : Key) (a b : Axis) :
    coord b (engine d key a) = steppedCoord d (decide (b = a)) (coord b key) := by
  by_cases h : b = a
  · subst h
    rw [decide_eq_true rfl, ← coord_stepPart]
    exact coord_congr fun i hi => getLsbD_engine_slot d key b hi
  · have hsame : steppedCoord d (decide (b = a)) (coord b key) = coord b key := by
      rw [decide_eq_false h]
      cases d <;> rfl
    rw [hsame]
    exact coord_congr fun i hi => getLsbD_engine_outside d key a _ (by rw [getLsbD_axisMask_slot a b hi, decide_eq_false h])

/-- The engine keeps bits 31:30. -/
theorem getLsbD_engine_unused (d : Dir) (key : Key) (a : Axis) {j : Nat} (hj : j = 30 ∨ j = 31) :
    (engine d key a).getLsbD j = key.getLsbD j :=
  getLsbD_engine_outside d key a j (by rw [getLsbD_axisMask, decide_eq_false (by omega), Bool.false_and])

end Sys2Proof.Machine
end

