-- ==== Sys2Proof/Proofs/KeyAnswers.lean ====
section
/-! PROOFS. The answer to one format-K or format-S command alone, by an equation each, and a key lane given back to a command as its
operand. -/

namespace Sys2Proof.Machine

/-- The key a command reads from an operand field (spec/30_encoding.md R42). -/
def keyOf (v : Word) : Key := v.setWidth 32

theorem keyOf_zext64 (k : Key) : keyOf (zext64 k) = k := setWidth_zext64 (by decide) k

theorem zext64_keyOf (v : Word) : zext64 (keyOf v) = keepLow 32 v := zext64_setWidth v

theorem toNat_keyOf (v : Word) : (keyOf v).toNat = v.toNat % 2 ^ 32 := BitVec.toNat_setWidth ..

theorem getLsbD_keyOf_of_lt {j : Nat} (h : j < 32) (v : Word) : (keyOf v).getLsbD j = v.getLsbD j := by
  rw [keyOf, BitVec.getLsbD_setWidth, decide_eq_true h, Bool.true_and]

/-- A number below 1024 as an operand of MENC. -/
theorem toNat_keyOf_ofNat {n : Nat} (h : n < 1024) : (keyOf (BitVec.ofNat 64 n)).toNat = n := by
  rw [toNat_keyOf, BitVec.toNat_ofNat]
  omega

theorem answerTo_menc {chk : Bool} {x y z : Word}
    (h : ((keyOf x).toNat ≤ 1023 ∧ (keyOf y).toNat ≤ 1023 ∧ (keyOf z).toNat ≤ 1023) ∨ chk = false) :
    answerTo chk .menc x y z = some (.ok (zext64 (encodeKey (keyOf x) (keyOf y) (keyOf z))) 0 0) :=
  answerTo_of_exec (exec_menc_ok (s := soleCommand chk .menc x y z) h)

/-- MDEC answers the three coordinates (R75). -/
theorem answerTo_mdec (chk : Bool) (k b c : Word) : answerTo chk .mdec k b c =
    some (.ok (BitVec.ofNat 64 (coord .x (keyOf k))) (BitVec.ofNat 64 (coord .y (keyOf k)))
      (BitVec.ofNat 64 (coord .z (keyOf k)))) := by
  simp only [coord_eq_toNat_decodeAxis, ← zext64_eq_ofNat]
  exact answerTo_of_exec (exec_mdec _)

theorem exec_kadd (s : State) :
    exec .kadd s = .next (answer s (.ok (zext64 (addKeys (keyA s) (keyB s))) 0 0)) := rfl

theorem exec_ksub (s : State) :
    exec .ksub s = .next (answer s (.ok (zext64 (subKeys (keyA s) (keyB s))) 0 0)) := rfl

theorem answerTo_kadd (chk : Bool) (a b c : Word) :
    answerTo chk .kadd a b c = some (.ok (zext64 (addKeys (keyOf a) (keyOf b))) 0 0) :=
  answerTo_of_exec (exec_kadd _)

theorem answerTo_ksub (chk : Bool) (a b c : Word) :
    answerTo chk .ksub a b c = some (.ok (zext64 (subKeys (keyOf a) (keyOf b))) 0 0) :=
  answerTo_of_exec (exec_ksub _)

theorem answerTo_keq (chk : Bool) (a b c : Word) :
    answerTo chk .keq a b c = some (.ok (if keyOf a = keyOf b then 1 else 0) 0 0) :=
  answerTo_of_exec (exec_keq _)

theorem answerTo_of_stepForm {i : Instr} {d : Dir} {axes : List Axis} (h : stepForm i = some (d, axes)) (chk : Bool)
    (k b c : Word) : answerTo chk i k b c = some (.ok (zext64 (axes.foldl (engine d) (keyOf k))) 0 0) :=
  answerTo_of_exec (exec_of_stepForm h _)

end Sys2Proof.Machine
end

