-- ==== Sys2Proof/Proofs/MortonLaws.lean ====
section
/-! PROOFS. The laws of the codec (spec/41_morton_codec.md section 4) and of raw and decoded equality (spec/43_morton_keyarith.md
R103), on keys seen as three coordinates and bits 31:30. -/

namespace Sys2Proof.Machine

/-! ### Round trips -/

/-- Three values as the coordinates of the axes. -/
def axisTriple (x y z : Key) : Axis → Key
  | .x => x
  | .y => y
  | .z => z

theorem coord_encodeKey_triple (x y z : Key) (a : Axis) :
    coord a (encodeKey x y z) = (axisTriple x y z a).toNat % 1024 :=
  coord_encodeKey (axisTriple x y z) a

theorem coord_lowBits (a : Axis) (k : Key) : coord a (lowBits 30 k) = coord a k := by
  have ha : slot a < 3 := slot_lt a
  refine coord_congr fun i hi => ?_
  rw [getLsbD_lowBits, decide_eq_true (by omega), decide_eq_true (by omega), Bool.true_and, Bool.true_and]

/-- Encoding the coordinates of a key gives its low 30 bits. -/
theorem encodeKey_of_coords {k x y z : Key} (h : ∀ a, (axisTriple x y z a).toNat = coord a k) :
    encodeKey x y z = lowBits 30 k := by
  apply key_ext
  · intro a
    rw [coord_lowBits, coord_encodeKey_triple, h, Nat.mod_eq_of_lt (coord_lt a k)]
  · intro j hj
    rw [getLsbD_encodeKey_of_ge _ _ _ (by omega), getLsbD_lowBits, decide_eq_false (by omega : ¬ j < 30), Bool.false_and,
      Bool.and_false]

theorem zext64_lowBits_keyOf (v : Word) : zext64 (lowBits 30 (keyOf v)) = keepLow 30 v := by
  rw [zext64_eq_ofNat, lowBits, keyOf, keepLow, BitVec.toNat_setWidth, BitVec.toNat_setWidth, BitVec.toNat_setWidth]
  congr 1
  omega

/-- MENC of the coordinates of a key, in either profile. -/
theorem answerTo_menc_coords (chk : Bool) (k : Key) :
    answerTo chk .menc (BitVec.ofNat 64 (coord .x k)) (BitVec.ofNat 64 (coord .y k)) (BitVec.ofNat 64 (coord .z k)) =
      some (.ok (zext64 (lowBits 30 k)) 0 0) := by
  have hx := toNat_keyOf_ofNat (coord_lt .x k)
  have hy := toNat_keyOf_ofNat (coord_lt .y k)
  have hz := toNat_keyOf_ofNat (coord_lt .z k)
  have hinRange (a : Axis) : coord a k ≤ 1023 := Nat.le_of_lt_succ (coord_lt a k)
  have htriple (a : Axis) : (axisTriple (keyOf (BitVec.ofNat 64 (coord .x k))) (keyOf (BitVec.ofNat 64 (coord .y k)))
      (keyOf (BitVec.ofNat 64 (coord .z k))) a).toNat = coord a k := by
    cases a with
    | x => exact hx
    | y => exact hy
    | z => exact hz
  rw [answerTo_menc (.inl ⟨hx.trans_le (hinRange .x), hy.trans_le (hinRange .y), hz.trans_le (hinRange .z)⟩),
    encodeKey_of_coords htriple]

/-- MDEC of an encoded key gives each coordinate modulo 1024. -/
theorem answerTo_mdec_encodeKey (chk : Bool) (x y z : Word) :
    answerTo chk .mdec (zext64 (encodeKey (keyOf x) (keyOf y) (keyOf z))) 0 0 =
      some (.ok (keepLow 10 x) (keepLow 10 y) (keepLow 10 z)) := by
  have hlow (v : Word) : BitVec.ofNat 64 ((keyOf v).toNat % 1024) = keepLow 10 v := by
    rw [toNat_keyOf, keepLow]
    congr 1
    omega
  rw [answerTo_mdec, keyOf_zext64]
  simp only [coord_encodeKey_triple, axisTriple, hlow]

theorem keepLow_of_lt {n : Nat} {v : Word} (h : v.toNat < 2 ^ n) : keepLow n v = v := by
  rw [keepLow, Nat.mod_eq_of_lt h, BitVec.ofNat_toNat, BitVec.setWidth_eq]

theorem toNat_keyOf_le {v : Word} (h : v.toNat ≤ 1023) : (keyOf v).toNat ≤ 1023 := by
  rw [toNat_keyOf]
  omega

/-- MENC of coordinates in range, then MDEC: the coordinates come back. -/
theorem menc_then_mdec (chk : Bool) {x y z : Word} (hx : x.toNat ≤ 1023) (hy : y.toNat ≤ 1023) (hz : z.toNat ≤ 1023) :
    ∃ k, answerTo chk .menc x y z = some (.ok k 0 0) ∧ answerTo chk .mdec k 0 0 = some (.ok x y z) := by
  have hround := answerTo_mdec_encodeKey chk x y z
  rw [keepLow_of_lt (by omega), keepLow_of_lt (by omega), keepLow_of_lt (by omega)] at hround
  exact ⟨_, answerTo_menc (.inl ⟨toNat_keyOf_le hx, toNat_keyOf_le hy, toNat_keyOf_le hz⟩), hround⟩

/-- Settles O50: with coordinates in range MDEC gives them back; unchecked, or from a key, what comes back is cut to its used bits. -/
theorem mortonRoundTrip : Obligations.MortonRoundTrip := by
  refine ⟨fun chk x y z => menc_then_mdec chk, fun x y z => ?truncated, fun chk k => ?decoded⟩
  case truncated => exact ⟨_, answerTo_menc (.inr rfl), answerTo_mdec_encodeKey false x y z⟩
  case decoded =>
    exact ⟨_, _, _, answerTo_mdec chk k 0 0, zext64_lowBits_keyOf k ▸ answerTo_menc_coords chk (keyOf k)⟩

theorem toNat_ofNat_coord (a : Axis) (k : Key) : (BitVec.ofNat 64 (coord a k)).toNat ≤ 1023 := by
  have h := coord_lt a k
  rw [BitVec.toNat_ofNat]
  omega

/-- Settles O51: the triple MDEC answers encodes to the key; a triple in range that encodes to the key is the one it decodes to. -/
theorem mencIsABijectionOntoCanonicalKeys : Obligations.MencIsABijectionOntoCanonicalKeys := by
  intro chk k hk
  have hmdec := answerTo_mdec chk k 0 0
  refine ⟨_, _, _, hmdec, fun x' y' z' => ⟨?encodes, ?unique⟩⟩
  case encodes =>
    rintro ⟨rfl, rfl, rfl⟩
    have hmenc := answerTo_menc_coords chk (keyOf k)
    rw [zext64_lowBits_keyOf, keepLow_of_lt hk] at hmenc
    exact ⟨toNat_ofNat_coord _ _, toNat_ofNat_coord _ _, toNat_ofNat_coord _ _, hmenc⟩
  case unique =>
    rintro ⟨hx, hy, hz, hmenc⟩
    obtain ⟨k', hmenc', hmdec'⟩ := menc_then_mdec chk hx hy hz
    obtain ⟨rfl, _, _⟩ := Response.ok.inj (Option.some.inj (hmenc'.symm.trans hmenc))
    exact Response.ok.inj (Option.some.inj (hmdec'.symm.trans hmdec))

/-! ### Canonical keys -/

/-- If a checked command ends in an OK response, its check has passed. -/
theorem checked_eq_ok {α : Type} {s : State} {c : Except Violation α} {k : α → Result} {q0 q1 q2 : Word}
    (h : checked s c k = .next (answer s (.ok q0 q1 q2))) : ∃ v, k v = .next (answer s (.ok q0 q1 q2)) := by
  cases c with
  | ok v => exact ⟨v, h⟩
  | error e => cases congrArg State.rsp (Host.Outcome.next.inj h)

/-- An OK answer of MENC is an encoded key. -/
theorem exec_menc_eq_ok {s : State} {q : Word} (h : exec .menc s = .next (answer s (.ok q 0 0))) :
    ∃ x y z, q = zext64 (encodeKey x y z) := by
  rw [exec_menc] at h
  obtain ⟨x, hx⟩ := checked_eq_ok h
  obtain ⟨y, hy⟩ := checked_eq_ok hx
  obtain ⟨z, hz⟩ := checked_eq_ok hy
  have hrsp := Option.some.inj (congrArg State.rsp (Host.Outcome.next.inj hz))
  obtain ⟨hq, _, _⟩ := Response.ok.inj hrsp
  exact ⟨x, y, z, hq.symm⟩

/-- Stepping along any axes keeps bits 31:30. -/
theorem getLsbD_foldl_engine_unused (d : Dir) (axes : List Axis) (k : Key) {j : Nat} (hj : j = 30 ∨ j = 31) :
    (axes.foldl (engine d) k).getLsbD j = k.getLsbD j := by
  induction axes generalizing k with
  | nil => rfl
  | cons a axes ih => rw [List.foldl_cons, ih, getLsbD_engine_unused d k a hj]

/-- A command whose result key has bits 31:30 of its first operand shows them in its lane. -/
theorem keeps_unused_bits {i : Instr} {s : State} {r : Key} (h : exec i s = .next (answer s (.ok (zext64 r) 0 0)))
    (hr : ∀ j, j = 30 ∨ j = 31 → r.getLsbD j = (keyA s).getLsbD j) :
    ∃ q : Word, exec i s = .next (answer s (.ok q 0 0)) ∧ q.getLsbD 30 = s.req.a.getLsbD 30 ∧
      q.getLsbD 31 = s.req.a.getLsbD 31 := by
  refine ⟨_, h, ?_, ?_⟩
  · rw [getLsbD_zext64_key, hr 30 (.inl rfl), getLsbD_keyA_of_lt (by decide)]
  · rw [getLsbD_zext64_key, hr 31 (.inr rfl), getLsbD_keyA_of_lt (by decide)]

/-- Settles O52: an OK answer of MENC is an encoded key, and the axis engines and the key adders touch the axes' slots only. -/
theorem keyCommandsKeepBits31And30 : Obligations.KeyCommandsKeepBits31And30 := by
  refine ⟨fun s q h => ?menc, fun i s hi => ?keeps⟩
  case menc =>
    obtain ⟨x, y, z, rfl⟩ := exec_menc_eq_ok h
    rw [getLsbD_zext64_key, getLsbD_zext64_key]
    exact ⟨getLsbD_encodeKey_of_ge _ _ _ (by decide), getLsbD_encodeKey_of_ge _ _ _ (by decide)⟩
  case keeps =>
    rcases hi with hstep | rfl | rfl
    · obtain ⟨⟨d, axes⟩, hform⟩ := Option.ne_none_iff_exists'.mp hstep
      exact keeps_unused_bits (exec_of_stepForm hform s) fun j hj => getLsbD_foldl_engine_unused d axes _ hj
    · exact keeps_unused_bits (exec_kadd s) fun j hj => getLsbD_addKeys_unused _ _ j hj
    · exact keeps_unused_bits (exec_ksub s) fun j hj => getLsbD_subKeys_unused _ _ j hj

/-! ### Raw and decoded equality -/

theorem keq_answers_one_iff (chk : Bool) (a b : Word) :
    answerTo chk .keq a b 0 = some (.ok 1 0 0) ↔ keyOf a = keyOf b := by
  rw [answerTo_keq]
  by_cases h : keyOf a = keyOf b
  · simp [h]
  · simp [h]

theorem ofNat_coord_inj {a : Axis} {k k' : Key} (h : BitVec.ofNat 64 (coord a k) = BitVec.ofNat 64 (coord a k')) :
    coord a k = coord a k' := by
  have hk := coord_lt a k
  have hk' := coord_lt a k'
  have hnat := congrArg BitVec.toNat h
  rw [BitVec.toNat_ofNat, BitVec.toNat_ofNat] at hnat
  omega

/-- MDEC answers alike exactly when the coordinates agree. -/
theorem mdec_answers_alike_iff (chk : Bool) (a b : Word) :
    answerTo chk .mdec a 0 0 = answerTo chk .mdec b 0 0 ↔ ∀ ax, coord ax (keyOf a) = coord ax (keyOf b) := by
  rw [answerTo_mdec, answerTo_mdec]
  constructor
  · intro h ax
    obtain ⟨hx, hy, hz⟩ := Response.ok.inj (Option.some.inj h)
    cases ax with
    | x => exact ofNat_coord_inj hx
    | y => exact ofNat_coord_inj hy
    | z => exact ofNat_coord_inj hz
  · intro h
    rw [h .x, h .y, h .z]

/-- With equal coordinates two keys are equal exactly when bits 31:30 agree. -/
theorem keyOf_eq_iff_of_coords {a b : Word} (h : ∀ ax, coord ax (keyOf a) = coord ax (keyOf b)) :
    keyOf a = keyOf b ↔ a.getLsbD 30 = b.getLsbD 30 ∧ a.getLsbD 31 = b.getLsbD 31 := by
  rw [← getLsbD_keyOf_of_lt (by decide) a, ← getLsbD_keyOf_of_lt (by decide) b, ← getLsbD_keyOf_of_lt (by decide) a,
    ← getLsbD_keyOf_of_lt (by decide) b]
  constructor
  · intro hk
    rw [hk]
    exact ⟨rfl, rfl⟩
  · rintro ⟨h30, h31⟩
    refine key_ext h ?_
    rintro j (rfl | rfl)
    · exact h30
    · exact h31

/-- R77: bits 31:30 of an operand below 2^30 are zero. -/
theorem getLsbD_of_canonical {v : Word} (h : v.toNat < 2 ^ 30) {j : Nat} (hj : 30 ≤ j) : v.getLsbD j = false :=
  BitVec.testBit_toNat v ▸ Nat.testBit_lt_two_pow (h.trans_le (Nat.pow_le_pow_right Nat.two_pos hj))

/-- Settles O56: on canonical keys bits 31:30 agree, being zero. -/
theorem rawAndDecodedEqualityAgreeOnCanonicalKeys : Obligations.RawAndDecodedEqualityAgreeOnCanonicalKeys := by
  intro chk a b
  rw [keq_answers_one_iff, mdec_answers_alike_iff]
  refine ⟨fun ha hb => ⟨fun h ax => by rw [h], fun h => (keyOf_eq_iff_of_coords h).mpr ?_⟩, keyOf_eq_iff_of_coords⟩
  rw [getLsbD_of_canonical ha (by decide), getLsbD_of_canonical hb (by decide), getLsbD_of_canonical ha (by decide),
    getLsbD_of_canonical hb (by decide)]
  exact ⟨rfl, rfl⟩

end Sys2Proof.Machine
end

