-- ==== Sys2Proof/Proofs/KeyLaws.lean ====
section
/-! PROOFS. The laws of the step commands (spec/42_morton_step.md sections 1 and 4) and of key arithmetic (spec/43_morton_keyarith.md).
Each says that two keys are equal, or that the coordinates of a key are given numbers; on coordinates it is arithmetic modulo 1024. -/

namespace Sys2Proof.Machine

/-! ### Stepping along a list of axes -/

theorem steppedCoord_false (d : Dir) (c : Nat) : steppedCoord d false c = c := by
  cases d <;> rfl

/-- Along distinct axes each listed axis is stepped once. -/
theorem coord_foldl_engine (d : Dir) {axes : List Axis} (hnodup : axes.Nodup) (k : Key) (a : Axis) :
    coord a (axes.foldl (engine d) k) = steppedCoord d (axes.contains a) (coord a k) := by
  induction axes generalizing k with
  | nil => exact (steppedCoord_false d _).symm
  | cons b axes ih =>
    obtain ⟨hb, hrest⟩ := List.nodup_cons.mp hnodup
    rw [List.foldl_cons, ih hrest, coord_engine]
    by_cases h : a = b
    · subst h
      simp [hb, steppedCoord_false]
    · simp [h, steppedCoord_false]

/-- The axes of a step command are distinct (R40). -/
theorem stepForm_nodup {i : Instr} {d : Dir} {axes : List Axis} (h : stepForm i = some (d, axes)) : axes.Nodup := by
  cases i with
  | incX | incY | incXY | incZ | incXZ | incYZ | incXYZ | decX | decY | decXY | decZ | decXZ | decYZ | decXYZ =>
    cases h
    decide
  | _ => cases h

/-- Settles O23: for a canonical key MENC of the stepped coordinates has the coordinates of the result, and both are canonical. -/
theorem stepCommandsMoveEachSelectedAxisModulo1024 : Obligations.StepCommandsMoveEachSelectedAxisModulo1024 := by
  intro i d axes s key hform hkey
  obtain rfl : key = keyA s := BitVec.eq_of_toNat_eq (hkey.trans (toNat_keyA s).symm)
  have hcoord := coord_foldl_engine d (stepForm_nodup hform) (keyA s)
  have hunused {j : Nat} (hj : j = 30 ∨ j = 31) := getLsbD_foldl_engine_unused d axes (keyA s) hj
  refine ⟨_, exec_of_stepForm hform s, hcoord, hunused (.inl rfl), hunused (.inr rfl), ?_⟩
  rintro ⟨h30, h31⟩
  have hlow : lowBits 30 (axes.foldl (engine d) (keyA s)) = axes.foldl (engine d) (keyA s) := by
    refine key_ext (fun a => coord_lowBits a _) fun j hj => ?_
    rw [getLsbD_lowBits, decide_eq_false (by omega : ¬ j < 30), Bool.false_and, Bool.and_false, hunused hj]
    rcases hj with rfl | rfl
    · exact h30.symm
    · exact h31.symm
  have hmenc := answerTo_menc_coords s.chk (axes.foldl (engine d) (keyA s))
  rw [hlow, hcoord, hcoord, hcoord] at hmenc
  exact hmenc

/-- A step and the step back, modulo 1024. -/
theorem steppedCoord_dec_inc (b : Bool) {c : Nat} (hc : c < 1024) : steppedCoord .dec b (steppedCoord .inc b c) = c := by
  cases b with
  | false => rfl
  | true =>
    simp only [steppedCoord]
    omega

theorem steppedCoord_inc_dec (b : Bool) {c : Nat} (hc : c < 1024) : steppedCoord .inc b (steppedCoord .dec b c) = c := by
  cases b with
  | false => rfl
  | true =>
    simp only [steppedCoord]
    omega

/-- Stepping along distinct axes, then along the same axes in a direction that undoes it on coordinates, gives the key back. -/
theorem foldl_engine_undo {d d' : Dir} {axes : List Axis} (hnodup : axes.Nodup)
    (hundo : ∀ (b : Bool) {c : Nat}, c < 1024 → steppedCoord d' b (steppedCoord d b c) = c) (k : Key) :
    axes.foldl (engine d') (axes.foldl (engine d) k) = k := by
  apply key_ext
  · intro a
    rw [coord_foldl_engine d' hnodup, coord_foldl_engine d hnodup, hundo _ (coord_lt a k)]
  · intro j hj
    rw [getLsbD_foldl_engine_unused d' axes _ hj, getLsbD_foldl_engine_unused d axes _ hj]

/-- Settles O24: on each coordinate the two directions undo each other. -/
theorem decrementInvertsIncrementOnAllKeys : Obligations.DecrementInvertsIncrementOnAllKeys := by
  intro i j axes chk v hi hj
  have hnodup := stepForm_nodup hi
  refine ⟨⟨_, answerTo_of_stepForm hi chk v 0 0, ?incDec⟩, ⟨_, answerTo_of_stepForm hj chk v 0 0, ?decInc⟩⟩
  case incDec =>
    rw [answerTo_of_stepForm hj, keyOf_zext64, foldl_engine_undo hnodup steppedCoord_dec_inc, zext64_keyOf]
  case decInc =>
    rw [answerTo_of_stepForm hi, keyOf_zext64, foldl_engine_undo hnodup steppedCoord_inc_dec, zext64_keyOf]

/-! ### The parallel form (R82) -/

/-- The bit of an axis in `AX` (R40). -/
def axisSelected (ax : BitVec 3) : Axis → Bool
  | .x => ax.getLsbD 0
  | .y => ax.getLsbD 1
  | .z => ax.getLsbD 2

theorem coord_stepIf (d : Dir) (a : Axis) (selected : Bool) (key : Key) (b : Axis) :
    coord b (stepIf d a selected key) = steppedCoord d (selected && decide (b = a)) (coord b key) := by
  cases selected with
  | false => exact (steppedCoord_false d _).symm
  | true => exact coord_engine d key a b

theorem coord_stepAxes (d : Dir) (ax : BitVec 3) (key : Key) (a : Axis) :
    coord a (stepAxes d ax key) = steppedCoord d (axisSelected ax a) (coord a key) := by
  rw [stepAxes, coord_stepIf, coord_stepIf, coord_stepIf]
  cases a <;> simp [axisSelected, steppedCoord_false]

/-- The value of an axis, if it is selected. -/
def selectedPart (ax : BitVec 3) (v : Axis → Key) (a : Axis) : Key := if axisSelected ax a then v a else 0

theorem stepParallel_eq (d : Dir) (ax : BitVec 3) (key : Key) : stepParallel d ax key =
    (key &&& ~~~(selectedPart ax axisMask .x ||| selectedPart ax axisMask .y ||| selectedPart ax axisMask .z)) |||
      (selectedPart ax (stepPart d key) .x ||| selectedPart ax (stepPart d key) .y |||
        selectedPart ax (stepPart d key) .z) := rfl

theorem getLsbD_selectedPart (ax : BitVec 3) (v : Axis → Key) (a : Axis) (j : Nat) :
    (selectedPart ax v a).getLsbD j = (axisSelected ax a && (v a).getLsbD j) := by
  unfold selectedPart
  cases axisSelected ax a with
  | false => exact BitVec.getLsbD_zero
  | true => exact (Bool.true_and _).symm

/-- The part of an axis lies in its slots. -/
theorem getLsbD_stepPart_outside (d : Dir) (key : Key) {a : Axis} {j : Nat} (h : (axisMask a).getLsbD j = false) :
    (stepPart d key a).getLsbD j = false := by
  cases d <;> rw [stepPart, BitVec.getLsbD_and, h, Bool.and_false]

/-- In the slots of an axis the parallel form shows the axis's part if the axis is selected, the key if not. -/
theorem getLsbD_stepParallel_slot (d : Dir) (ax : BitVec 3) (key : Key) (a : Axis) {i : Nat} (hi : i < 10) :
    (stepParallel d ax key).getLsbD (3 * i + slot a) =
      if axisSelected ax a then (stepPart d key a).getLsbD (3 * i + slot a) else key.getLsbD (3 * i + slot a) := by
  have ha : slot a < 3 := slot_lt a
  have hout {v : Axis → Key} (hv : ∀ b j, (axisMask b).getLsbD j = false → (v b).getLsbD j = false) (b : Axis) (j : Nat)
      (h : (axisMask b).getLsbD j = false) : (selectedPart ax v b).getLsbD j = false := by
    rw [getLsbD_selectedPart, hv b j h, Bool.and_false]
  rw [stepParallel_eq, BitVec.getLsbD_or, BitVec.getLsbD_and, BitVec.getLsbD_not,
    getLsbD_or_of_axes (hout fun _ _ h => h) a hi,
    getLsbD_or_of_axes (hout fun _ _ => getLsbD_stepPart_outside d key) a hi, getLsbD_selectedPart, getLsbD_selectedPart,
    getLsbD_axisMask_slot a a hi, decide_eq_true (by omega : 3 * i + slot a < 32), decide_eq_true rfl]
  cases axisSelected ax a with
  | false => simp
  | true => simp

theorem coord_stepParallel (d : Dir) (ax : BitVec 3) (key : Key) (a : Axis) :
    coord a (stepParallel d ax key) = steppedCoord d (axisSelected ax a) (coord a key) := by
  cases h : axisSelected ax a with
  | false =>
    rw [steppedCoord_false]
    refine coord_congr fun i hi => ?_
    rw [getLsbD_stepParallel_slot d ax key a hi, if_neg (by rw [h]; decide)]
  | true =>
    rw [← coord_stepPart]
    refine coord_congr fun i hi => ?_
    rw [getLsbD_stepParallel_slot d ax key a hi, if_pos h]

theorem getLsbD_stepParallel_unused (d : Dir) (ax : BitVec 3) (key : Key) {j : Nat} (hj : j = 30 ∨ j = 31) :
    (stepParallel d ax key).getLsbD j = key.getLsbD j := by
  have hmask (a : Axis) : (axisMask a).getLsbD j = false := by
    rw [getLsbD_axisMask, decide_eq_false (by omega), Bool.false_and]
  have hpart (a : Axis) := getLsbD_stepPart_outside d key (hmask a)
  simp only [stepParallel_eq, BitVec.getLsbD_or, BitVec.getLsbD_and, BitVec.getLsbD_not, getLsbD_selectedPart, hmask,
    hpart, decide_eq_true (show j < 32 by omega), Bool.and_false, Bool.or_false, Bool.not_false, Bool.and_true]

/-- Steps of two axes in one direction can be exchanged on every coordinate. -/
theorem steppedCoord_comm (d : Dir) (b b' : Bool) (c : Nat) :
    steppedCoord d b (steppedCoord d b' c) = steppedCoord d b' (steppedCoord d b c) := by
  cases b <;> cases b' <;> simp only [steppedCoord_false]

/-- Settles O25: each side steps the same axes and keeps bits 31:30. -/
theorem parallelStepFormEqualsTheComposition : Obligations.ParallelStepFormEqualsTheComposition := by
  refine ⟨fun d ax key => key_ext (fun a => ?_) fun j hj => ?_, fun d a b key => key_ext (fun a' => ?_) fun j hj => ?_⟩
  · rw [coord_stepParallel, coord_stepAxes]
  · rw [getLsbD_stepParallel_unused d ax key hj, getLsbD_stepAxes_unused d ax key j hj]
  · rw [coord_engine, coord_engine, coord_engine, coord_engine, steppedCoord_comm]
  · rw [getLsbD_engine_unused _ _ _ hj, getLsbD_engine_unused _ _ _ hj, getLsbD_engine_unused _ _ _ hj,
      getLsbD_engine_unused _ _ _ hj]

/-! ### Key addition and subtraction -/

/-- Settles O26: the numbers of the statement are the key operands of KADD. -/
theorem kaddAddsEachAxisModulo1024 : Obligations.KaddAddsEachAxisModulo1024 := by
  refine ⟨decode_encode .kadd, fun s a b ha hb => ?_⟩
  obtain rfl : a = keyA s := BitVec.eq_of_toNat_eq (ha.trans (toNat_keyA s).symm)
  obtain rfl : b = keyB s := BitVec.eq_of_toNat_eq (hb.trans (toNat_keyB s).symm)
  exact ⟨_, exec_kadd s, coord_addKeys _ _, getLsbD_addKeys_unused _ _ 30 (.inl rfl),
    getLsbD_addKeys_unused _ _ 31 (.inr rfl)⟩

/-- Settles O27: the numbers of the statement are the key operands of KSUB. -/
theorem ksubSubtractsEachAxisModulo1024 : Obligations.KsubSubtractsEachAxisModulo1024 := by
  refine ⟨decode_encode .ksub, fun s a b ha hb => ?_⟩
  obtain rfl : a = keyA s := BitVec.eq_of_toNat_eq (ha.trans (toNat_keyA s).symm)
  obtain rfl : b = keyB s := BitVec.eq_of_toNat_eq (hb.trans (toNat_keyB s).symm)
  exact ⟨_, exec_ksub s, coord_subKeys _ _, getLsbD_subKeys_unused _ _ 30 (.inl rfl),
    getLsbD_subKeys_unused _ _ 31 (.inr rfl)⟩

theorem subKeys_addKeys (a b : Key) : subKeys (addKeys a b) b = a := by
  apply key_ext
  · intro ax
    have ha := coord_lt ax a
    have hb := coord_lt ax b
    rw [coord_subKeys, coord_addKeys]
    omega
  · intro j hj
    rw [getLsbD_subKeys_unused _ _ j hj, getLsbD_addKeys_unused _ _ j hj]

theorem coord_zero (ax : Axis) : coord ax 0 = 0 := by
  cases ax <;> decide

theorem addKeys_zero (a : Key) : addKeys a 0 = a := by
  apply key_ext
  · intro ax
    have ha := coord_lt ax a
    rw [coord_addKeys, coord_zero]
    omega
  · exact fun j hj => getLsbD_addKeys_unused _ _ j hj

theorem subKeys_zero (a : Key) : subKeys a 0 = a := by
  apply key_ext
  · intro ax
    have ha := coord_lt ax a
    rw [coord_subKeys, coord_zero]
    omega
  · exact fun j hj => getLsbD_subKeys_unused _ _ j hj

/-- The unused bits of a key have no coordinates. -/
theorem coord_and_unusedMask (ax : Axis) (a : Key) : coord ax (a &&& unusedMask) = 0 := by
  rw [← coord_zero ax]
  refine coord_congr fun i hi => ?_
  have hax : slot ax < 3 := slot_lt ax
  rw [BitVec.getLsbD_and, getLsbD_unusedMask_of_lt (by omega), Bool.and_false]
  exact BitVec.getLsbD_zero.symm

theorem subKeys_self (a : Key) : subKeys a a = a &&& unusedMask := by
  apply key_ext
  · intro ax
    have ha := coord_lt ax a
    rw [coord_subKeys, coord_and_unusedMask]
    omega
  · intro j hj
    have hmask : unusedMask.getLsbD j = true := by rcases hj with rfl | rfl <;> decide
    rw [getLsbD_subKeys_unused _ _ j hj, BitVec.getLsbD_and, hmask, Bool.and_true]

theorem zext64_keyOf_and_unusedMask (v : Word) : zext64 (keyOf v &&& unusedMask) = v &&& 0xC0000000#64 := by
  apply BitVec.eq_of_getLsbD_eq
  intro j _
  rw [show 0xC0000000#64 = zext64 unusedMask from rfl, getLsbD_zext64_key, BitVec.getLsbD_and, BitVec.getLsbD_and,
    getLsbD_zext64_key]
  by_cases hj : j < 32
  · rw [getLsbD_keyOf_of_lt hj]
  · rw [BitVec.getLsbD_of_ge unusedMask j (by omega), Bool.and_false, Bool.and_false]

/-- Settles O53: each clause is an equation of keys, carried through the lanes. -/
theorem keySubtractUndoesKeyAdd : Obligations.KeySubtractUndoesKeyAdd := by
  intro chk a b
  have hzero : keyOf 0 = 0 := rfl
  refine ⟨⟨_, answerTo_kadd chk a b 0, ?undo⟩, ?self, ?addZero, ?subZero⟩
  case undo => rw [answerTo_ksub, keyOf_zext64, subKeys_addKeys, zext64_keyOf]
  case self => rw [answerTo_ksub, subKeys_self, zext64_keyOf_and_unusedMask]
  case addZero => rw [answerTo_kadd, hzero, addKeys_zero, zext64_keyOf]
  case subZero => rw [answerTo_ksub, hzero, subKeys_zero, zext64_keyOf]

/-- Adding a key with coordinate 1 on the listed axes and 0 elsewhere is stepping along them. -/
theorem addKeys_eq_foldl_engine {axes : List Axis} (hnodup : axes.Nodup) {n : Key}
    (hn : ∀ a, coord a n = (axes.contains a).toNat) (k : Key) : addKeys k n = axes.foldl (engine .inc) k := by
  apply key_ext
  · intro a
    have hk := coord_lt a k
    rw [coord_addKeys, coord_foldl_engine .inc hnodup, hn]
    cases axes.contains a with
    | false => exact Nat.mod_eq_of_lt hk
    | true => rfl
  · intro j hj
    rw [getLsbD_addKeys_unused _ _ j hj, getLsbD_foldl_engine_unused _ _ _ hj]

theorem subKeys_eq_foldl_engine {axes : List Axis} (hnodup : axes.Nodup) {n : Key}
    (hn : ∀ a, coord a n = (axes.contains a).toNat) (k : Key) : subKeys k n = axes.foldl (engine .dec) k := by
  apply key_ext
  · intro a
    have hk := coord_lt a k
    rw [coord_subKeys, coord_foldl_engine .dec hnodup, hn]
    cases axes.contains a with
    | false => exact (Nat.add_mod_right _ _).trans (Nat.mod_eq_of_lt hk)
    | true => rfl
  · intro j hj
    rw [getLsbD_subKeys_unused _ _ j hj, getLsbD_foldl_engine_unused _ _ _ hj]

/-- KADD with the step constant of an axis set answers as the INC command of that set. -/
theorem kadd_answers_as_step {i : Instr} {axes : List Axis} (hi : stepForm i = some (.inc, axes)) {n : Word}
    (hn : ∀ a, coord a (keyOf n) = (axes.contains a).toNat) (chk : Bool) (k : Word) :
    answerTo chk .kadd k n 0 = some (.ok (zext64 (axes.foldl (engine .inc) (keyOf k))) 0 0) ∧
    answerTo chk i k 0 0 = some (.ok (zext64 (axes.foldl (engine .inc) (keyOf k))) 0 0) :=
  ⟨by rw [answerTo_kadd, addKeys_eq_foldl_engine (stepForm_nodup hi) hn], answerTo_of_stepForm hi chk k 0 0⟩

theorem ksub_answers_as_step {i : Instr} {axes : List Axis} (hi : stepForm i = some (.dec, axes)) {n : Word}
    (hn : ∀ a, coord a (keyOf n) = (axes.contains a).toNat) (chk : Bool) (k : Word) :
    answerTo chk .ksub k n 0 = some (.ok (zext64 (axes.foldl (engine .dec) (keyOf k))) 0 0) ∧
    answerTo chk i k 0 0 = some (.ok (zext64 (axes.foldl (engine .dec) (keyOf k))) 0 0) :=
  ⟨by rw [answerTo_ksub, subKeys_eq_foldl_engine (stepForm_nodup hi) hn], answerTo_of_stepForm hi chk k 0 0⟩

/-- The keys 1, 2, 4 and 7 are one step on x, on y, on z and on all three axes (R68). -/
theorem coord_stepConstants : (∀ a, coord a (keyOf 1) = ([Axis.x].contains a).toNat) ∧
    (∀ a, coord a (keyOf 2) = ([Axis.y].contains a).toNat) ∧ (∀ a, coord a (keyOf 4) = ([Axis.z].contains a).toNat) ∧
    ∀ a, coord a (keyOf 7) = ([Axis.x, Axis.y, Axis.z].contains a).toNat := by
  refine ⟨fun a => ?_, fun a => ?_, fun a => ?_, fun a => ?_⟩ <;> cases a <;> decide

/-- Settles O54: each constant has the coordinates of its axis set. -/
theorem keyArithmeticWithStepConstantsEqualsStepping : Obligations.KeyArithmeticWithStepConstantsEqualsStepping := by
  intro chk k
  obtain ⟨h1, h2, h4, h7⟩ := coord_stepConstants
  obtain ⟨addX, incX⟩ := kadd_answers_as_step (i := .incX) rfl h1 chk k
  obtain ⟨addY, incY⟩ := kadd_answers_as_step (i := .incY) rfl h2 chk k
  obtain ⟨addZ, incZ⟩ := kadd_answers_as_step (i := .incZ) rfl h4 chk k
  obtain ⟨addXYZ, incXYZ⟩ := kadd_answers_as_step (i := .incXYZ) rfl h7 chk k
  obtain ⟨subX, decX⟩ := ksub_answers_as_step (i := .decX) rfl h1 chk k
  obtain ⟨subY, decY⟩ := ksub_answers_as_step (i := .decY) rfl h2 chk k
  obtain ⟨subZ, decZ⟩ := ksub_answers_as_step (i := .decZ) rfl h4 chk k
  obtain ⟨subXYZ, decXYZ⟩ := ksub_answers_as_step (i := .decXYZ) rfl h7 chk k
  exact ⟨_, _, _, _, _, _, _, _, addX, incX, addY, incY, addZ, incZ, addXYZ, incXYZ, subX, decX, subY, decY, subZ, decZ,
    subXYZ, decXYZ⟩

/-- Bits 31:30 of a canonical operand's key are zero. -/
theorem getLsbD_keyOf_unused {v : Word} (h : v.toNat < 2 ^ 30) {j : Nat} (hj : j = 30 ∨ j = 31) :
    (keyOf v).getLsbD j = false := by
  rw [getLsbD_keyOf_of_lt (by omega), getLsbD_of_canonical h (by omega)]

/-- Keys that agree in bits 31:30 add in either order. -/
theorem addKeys_comm {a b : Key} (h : ∀ j, j = 30 ∨ j = 31 → a.getLsbD j = b.getLsbD j) : addKeys a b = addKeys b a := by
  apply key_ext
  · intro ax
    rw [coord_addKeys, coord_addKeys, Nat.add_comm]
  · intro j hj
    rw [getLsbD_addKeys_unused _ _ j hj, getLsbD_addKeys_unused _ _ j hj, h j hj]

theorem addKeys_assoc (a b c : Key) : addKeys (addKeys a b) c = addKeys a (addKeys b c) := by
  apply key_ext
  · intro ax
    simp only [coord_addKeys]
    omega
  · intro j hj
    rw [getLsbD_addKeys_unused _ _ j hj, getLsbD_addKeys_unused _ _ j hj, getLsbD_addKeys_unused _ _ j hj]

/-- Settles O55: canonical keys agree in bits 31:30; associativity needs no such condition. -/
theorem keyAddIsCommutativeAndAssociativeOnCanonicalKeys :
    Obligations.KeyAddIsCommutativeAndAssociativeOnCanonicalKeys := by
  intro chk a b c ha hb _
  have hcomm : addKeys (keyOf b) (keyOf a) = addKeys (keyOf a) (keyOf b) :=
    addKeys_comm fun j hj => (getLsbD_keyOf_unused hb hj).trans (getLsbD_keyOf_unused ha hj).symm
  refine ⟨_, _, _, answerTo_kadd chk a b 0, ?comm, answerTo_kadd chk b c 0, answerTo_kadd chk _ c 0, ?assoc⟩
  case comm => rw [answerTo_kadd, hcomm]
  case assoc => rw [answerTo_kadd, keyOf_zext64, keyOf_zext64, addKeys_assoc]

end Sys2Proof.Machine
end
